-- ==== Sys2Proof/Word.lean ====
section
/-! DEFINITION. The plain data every layer shares: a byte, the seven-register block (30_encoding.md R93) and the
decoded time (00_scope.md R17, 30_encoding.md R94). -/

namespace Sys2Proof

/-- One byte: a register of the slave, a status code, an operand. -/
abbrev Byte := BitVec 8

/-- RtcRegisterBlock, the shape of `buf[0..6]`: byte `i` belongs to register address `i` of a full read
(30_encoding.md R93, 10_state.md R25). -/
structure Block where
  b0 : Byte
  b1 : Byte
  b2 : Byte
  b3 : Byte
  b4 : Byte
  b5 : Byte
  b6 : Byte
  deriving DecidableEq, Repr

/-- WallClockTime on the `t_*` and `wc_*` ports (30_encoding.md R94). -/
structure WallClock where
  second  : Byte
  minute  : Byte
  hour    : Byte
  weekday : Byte
  day     : Byte
  month   : Byte
  year    : BitVec 12
  deriving DecidableEq, Repr

end Sys2Proof
end

