-- ==== Sys2Proof/Config.lean ====
section
/-! DEFINITION. What an implementation fixes and the spec leaves open (00_scope.md R10), and the free values
(93_implementation_defined.md U2). None has a body: a claim holds whatever they are. -/

namespace Sys2Proof

/-- `T_SETTLE`, the settle delay after a WRITE's stop in `clk` cycles: OPEN (00_scope.md R10; log 7). -/
opaque Config.tSettle : Nat

/-- `BUS_RATE`, a property of the phase engine: OPEN, and no rule depends on it (00_scope.md R10; log 7). -/
opaque Config.busRate : Nat

/-- The `k`-th free value: the high nibble that `ENC` drives for an operand of 100 or more
(93_implementation_defined.md U2; log 6). -/
opaque Config.freeNibble : Nat → BitVec 4

end Sys2Proof
end

