-- ==== Sys2Proof/Syntax.lean ====
section
/-! DEFINITION. The instructions: one constructor for each row of spec/opcode_table.json. What "instruction" means
on this hardware is 00_scope.md R7. -/

namespace Sys2Proof

/-- One constructor per row of the opcode table. -/
inductive Instr where
  /-- `READ ra, n` (40_transactions.md R106). The operand is the whole byte `arg` of the command word: a count
  outside 1..7 is a reserved encoding that the block answers with `REJECTED` (R118). -/
  | read (ra count : Byte)
  /-- `WRITE ra, v` (40_transactions.md R112). -/
  | write (ra value : Byte)
  /-- Phase `IDLE` (40_transactions.md R105). -/
  | idle
  /-- Phase `P_START` (41_phases.md R132). -/
  | pStart
  /-- Phase `P_SLAW` (41_phases.md R134). -/
  | pSlaw
  /-- Phase `P_REG` (41_phases.md R136). -/
  | pReg
  /-- Phase `P_RSTART` (41_phases.md R138). -/
  | pRstart
  /-- Phase `P_SLAR` (41_phases.md R139). -/
  | pSlar
  /-- Phase `P_RXDATA` (41_phases.md R140). -/
  | pRxdata
  /-- Phase `P_WDATA` (41_phases.md R142). -/
  | pWdata
  /-- Phase `P_SETTLE` (41_phases.md R146). -/
  | pSettle
  /-- Action `ACT_NONE` (41_phases.md R130). -/
  | actNone
  /-- Action `ACT_START` (41_phases.md R128, R129). -/
  | actStart
  /-- Action `ACT_TX` with the byte on `pe_txdata` (41_phases.md R128). -/
  | actTx (d : Byte)
  /-- Action `ACT_RXA` (41_phases.md R128). -/
  | actRxa
  /-- Action `ACT_RXN` (41_phases.md R128). -/
  | actRxn
  /-- Action `ACT_STOP` (41_phases.md R144). -/
  | actStop
  /-- `DEC b` (42_bcd_codec.md R162). -/
  | dec (b : Byte)
  /-- `ENC v` (42_bcd_codec.md R166). -/
  | enc (v : Byte)
  /-- `DECT` of a register block (42_bcd_codec.md R178). The hardware feeds it `buf` (log 17). -/
  | dect (blk : Block)
  /-- `VAL` of a register block (42_bcd_codec.md R182, R183, R184). The hardware feeds it `buf` (log 17). -/
  | val (blk : Block)
  /-- `ENCT wc` (42_bcd_codec.md R186). -/
  | enct (wc : WallClock)
  deriving DecidableEq, Repr

end Sys2Proof
end

