-- ==== Sys2Proof/WellFormed.lean ====
section
/-! DEFINITION. Which instructions are legal encodings (30_encoding.md R95, R96). Field widths are in the types of
the operands; the one constraint the opcode table adds is the count of a READ. -/

namespace Sys2Proof

/-- A legal count: 1 to `MAXCOUNT` = 7 (30_encoding.md R95, 00_scope.md R9). -/
def legalCount (n : Byte) : Bool := decide (1 ≤ n.toNat ∧ n.toNat ≤ 7)

/-- Not a reserved encoding. Every `WRITE`, phase, action and codec operand is legal; a `READ` needs a count of 1
to 7 (30_encoding.md R95). A reserved `READ` still decodes and still has its meaning, `REJECTED` (log 9). -/
def Instr.wellFormed : Instr → Bool
  | .read _ n => legalCount n
  | .write _ _ => true
  | .idle | .pStart | .pSlaw | .pReg | .pRstart | .pSlar | .pRxdata | .pWdata | .pSettle => true
  | .actNone | .actStart | .actTx _ | .actRxa | .actRxn | .actStop => true
  | .dec _ | .enc _ | .dect _ | .val _ | .enct _ => true

end Sys2Proof
end

