-- ==== Sys2Proof/Decode.lean ====
section
/-! DEFINITION. The decoder, total on the words of every port, and after it the encoder (30_encoding.md). The block
has no one instruction word: commands stand on `cmd`, phases in `ph`, actions on `pe_action` with `pe_txdata`, and
each codec function has ports of its own (30_encoding.md R100). So a word comes with the port it stands on. -/

namespace Sys2Proof

/-- The bits of one instruction on the port that carries it (formats of 30_encoding.md R75). -/
inductive PortWord where
  /-- Format `CMD` on port `cmd`. -/
  | cmd (w : BitVec 17)
  /-- Format `PHASE`, the register `ph`. -/
  | phase (code : BitVec 4)
  /-- Format `ACT` on port `pe_action`, with the byte on `pe_txdata`. -/
  | act (code : BitVec 3) (txdata : Byte)
  /-- Format `BCD8` on port `dec_in`. -/
  | decIn (b : Byte)
  /-- Format `BIN8` on port `enc_in`. -/
  | encIn (v : Byte)
  /-- Format `BLK56`, the input of `DECT`. -/
  | dectIn (w : BitVec 56)
  /-- Format `BLK56`, the input of `VAL`. -/
  | valIn (w : BitVec 56)
  /-- Format `WCT60`, the `wc_*` ports side by side as the opcode table lists them. -/
  | wcIn (w : BitVec 60)
  deriving DecidableEq, Repr

/-- Why a word has no instruction. -/
inductive DecodeError where
  /-- Phase codes 9 to 15 are never reached (30_encoding.md R80, R96). -/
  | reservedPhase (code : BitVec 4)
  /-- Action codes 6 and 7 are never driven (30_encoding.md R79, R96). -/
  | reservedAction (code : BitVec 3)
  deriving DecidableEq, Repr

/-- What the decoder answers: an instruction, or the reason there is none. -/
inductive Decoded where
  | ok (i : Instr)
  | error (why : DecodeError)
  deriving DecidableEq, Repr

/-- Byte `i` of a block at bits `[8i+7:8i]` (20_memory.md R57). -/
def Block.unpack (w : BitVec 56) : Block where
  b0 := w.extractLsb' 0 8
  b1 := w.extractLsb' 8 8
  b2 := w.extractLsb' 16 8
  b3 := w.extractLsb' 24 8
  b4 := w.extractLsb' 32 8
  b5 := w.extractLsb' 40 8
  b6 := w.extractLsb' 48 8

/-- The inverse packing (20_memory.md R57). -/
def Block.pack (blk : Block) : BitVec 56 :=
  blk.b6 ++ blk.b5 ++ blk.b4 ++ blk.b3 ++ blk.b2 ++ blk.b1 ++ blk.b0

/-- The `wc_*` fields in the order the opcode table's row `ENCT` lists them: seconds lowest, year highest. -/
def WallClock.unpack (w : BitVec 60) : WallClock where
  second  := w.extractLsb' 0 8
  minute  := w.extractLsb' 8 8
  hour    := w.extractLsb' 16 8
  weekday := w.extractLsb' 24 8
  day     := w.extractLsb' 32 8
  month   := w.extractLsb' 40 8
  year    := w.extractLsb' 48 12

/-- The inverse of `WallClock.unpack`. -/
def WallClock.pack (wc : WallClock) : BitVec 60 :=
  wc.year ++ wc.month ++ wc.day ++ wc.weekday ++ wc.hour ++ wc.minute ++ wc.second

/-- The command word: bit 16 selects, `ra` in bits `[15:8]`, `arg` in bits `[7:0]` (30_encoding.md R76, R77). -/
def decodeCmd (w : BitVec 17) : Instr :=
  if w.extractLsb' 16 1 = 1#1 then .write (w.extractLsb' 8 8) (w.extractLsb' 0 8)
  else .read (w.extractLsb' 8 8) (w.extractLsb' 0 8)

/-- The phase codes (30_encoding.md R80). -/
def decodePhase (code : BitVec 4) : Decoded :=
  match code.toNat with
  | 0 => .ok .idle
  | 1 => .ok .pStart
  | 2 => .ok .pSlaw
  | 3 => .ok .pReg
  | 4 => .ok .pRstart
  | 5 => .ok .pSlar
  | 6 => .ok .pRxdata
  | 7 => .ok .pWdata
  | 8 => .ok .pSettle
  | _ => .error (.reservedPhase code)

/-- The action codes (30_encoding.md R79). -/
def decodeAct (code : BitVec 3) (txdata : Byte) : Decoded :=
  match code.toNat with
  | 0 => .ok .actNone
  | 1 => .ok .actStart
  | 2 => .ok (.actTx txdata)
  | 3 => .ok .actRxa
  | 4 => .ok .actRxn
  | 5 => .ok .actStop
  | _ => .error (.reservedAction code)

/-- The decoder: total, and a reserved code is rejected by name (30_encoding.md R75 to R80, R100). -/
def decode : PortWord → Decoded
  | .cmd w => .ok (decodeCmd w)
  | .phase c => decodePhase c
  | .act c d => decodeAct c d
  | .decIn b => .ok (.dec b)
  | .encIn v => .ok (.enc v)
  | .dectIn w => .ok (.dect (Block.unpack w))
  | .valIn w => .ok (.val (Block.unpack w))
  | .wcIn w => .ok (.enct (WallClock.unpack w))

/-- The word of an instruction, from the same tables (30_encoding.md R76, R79, R80, R93, R98). `pe_txdata` means
something only with `ACT_TX` (10_state.md R35); the other actions are written with 0 there. -/
def encode : Instr → PortWord
  | .read ra n => .cmd (0#1 ++ ra ++ n)
  | .write ra v => .cmd (1#1 ++ ra ++ v)
  | .idle => .phase 0
  | .pStart => .phase 1
  | .pSlaw => .phase 2
  | .pReg => .phase 3
  | .pRstart => .phase 4
  | .pSlar => .phase 5
  | .pRxdata => .phase 6
  | .pWdata => .phase 7
  | .pSettle => .phase 8
  | .actNone => .act 0 0
  | .actStart => .act 1 0
  | .actTx d => .act 2 d
  | .actRxa => .act 3 0
  | .actRxn => .act 4 0
  | .actStop => .act 5 0
  | .dec b => .decIn b
  | .enc v => .encIn v
  | .dect blk => .dectIn blk.pack
  | .val blk => .valIn blk.pack
  | .enct wc => .wcIn wc.pack

/-- The port on which a bare word of the opcode table is read. The table's word alone does not say its port, so the
number of bits does (log 15): 17 bits, or the whole bytes that hold them, are a command; 3 an action; 4 a phase; one
byte a phase if its high nibble is 0, else the operand of `DEC`; 56 the block of `DECT`; 60, or the eight bytes that
hold them, the fields of `ENCT`. -/
def tableWord (nbits w : Nat) : Option PortWord :=
  match nbits with
  | 3 => if w < 2 ^ 3 then some (.act (BitVec.ofNat 3 w) 0) else none
  | 4 => if w < 2 ^ 4 then some (.phase (BitVec.ofNat 4 w)) else none
  | 8 =>
    if w < 2 ^ 4 then some (.phase (BitVec.ofNat 4 w))
    else if w < 2 ^ 8 then some (.decIn (BitVec.ofNat 8 w))
    else none
  | 17 | 24 | 32 => if w < 2 ^ 17 then some (.cmd (BitVec.ofNat 17 w)) else none
  | 56 => if w < 2 ^ 56 then some (.dectIn (BitVec.ofNat 56 w)) else none
  | 60 | 64 => if w < 2 ^ 60 then some (.wcIn (BitVec.ofNat 60 w)) else none
  | _ => none

/-- The instruction the decoder reads from a word of the opcode table. -/
def decodeTableWord (nbits w : Nat) : Option Instr :=
  match tableWord nbits w with
  | some pw =>
    match decode pw with
    | .ok i => some i
    | .error _ => none
  | none => none

end Sys2Proof
end

