-- ==== Sys2Proof/Machine/State.lean ====
section
/-! DEFINITION. The state: every register of 10_state.md R20, the ports of R34 to R36 as the values they carry in
the present cycle, and the two fields that are the model's own (`script`, `freeCtr`). Plain data throughout. -/

namespace Sys2Proof.Machine

/-- The nine values of `ph` (10_state.md R23; codes in 30_encoding.md R80). -/
inductive Phase where
  | idle
  | pStart
  | pSlaw
  | pReg
  | pRstart
  | pSlar
  | pRxdata
  | pWdata
  | pSettle
  deriving DecidableEq, Repr

/-- `op`: 0 = READ, 1 = WRITE (10_state.md R21). -/
inductive Op where
  | read
  | write
  deriving DecidableEq, Repr

/-- The action codes 0 to 5 of register `act` (10_state.md R26; 30_encoding.md R79). -/
inductive Act where
  | noAct
  | start
  | tx
  | rxa
  | rxn
  | stop
  deriving DecidableEq, Repr

/-- The result codes (10_state.md R29; 30_encoding.md R82). -/
inductive ResCode where
  | noResult
  | ok
  | fail
  | rejected
  deriving DecidableEq, Repr

/-- The failure tags (10_state.md R30; 30_encoding.md R81). `stop` is encoded and never produced. -/
inductive Tag where
  | noTag
  | start
  | addrWAck
  | addrWReg
  | rstart
  | addrRAck
  | dataByte
  | stop
  deriving DecidableEq, Repr

/-- The values on the block's input ports in one cycle (10_state.md R34, R35, R36). -/
structure PortIn where
  rst      : Bool
  cmdValid : Bool
  cmd      : BitVec 17
  peDone   : Bool
  peStatus : Byte
  peRxdata : Byte
  decIn    : Byte
  encIn    : Byte
  wc       : WallClock
  deriving DecidableEq, Repr

/-- The values on the codec's output ports (10_state.md R36). They are combinational: every step drives them anew
from the input ports and `buf` (log 4). -/
structure CodecOut where
  decOut : Byte
  encOut : Byte
  blkOut : Block
  t      : WallClock
  tFv    : BitVec 7
  tValid : Bool
  tCh    : Bool
  deriving DecidableEq, Repr

/-- The block in one clock cycle. -/
structure State where
  /-- The phase register (10_state.md R23). -/
  ph        : Phase
  /-- Index of the data byte in flight (10_state.md R27). -/
  idx       : BitVec 3
  /-- Operation of the transaction in flight (10_state.md R21). -/
  op        : Op
  /-- Register address (10_state.md R22). -/
  ra        : Byte
  /-- Byte count (10_state.md R22). -/
  cnt       : BitVec 3
  /-- Data byte of a WRITE (10_state.md R22). -/
  wd        : Byte
  /-- Transmit data register (10_state.md R24). -/
  txd       : Byte
  /-- Action output register (10_state.md R26). -/
  act       : Act
  /-- Receive buffer (10_state.md R25). -/
  buf       : Block
  /-- Settle timer (10_state.md R28). -/
  settle    : Nat
  /-- `res_code` (10_state.md R29). -/
  resCode   : ResCode
  /-- `res_tag` (10_state.md R30). -/
  resTag    : Tag
  /-- `res_idx` (10_state.md R31). -/
  resIdx    : BitVec 3
  /-- `res_status` (10_state.md R32). -/
  resStatus : Byte
  /-- The input ports in this cycle, sampled by the next edge. -/
  port      : PortIn
  /-- The codec's output ports in this cycle. -/
  codec     : CodecOut
  /-- MODEL'S OWN: what host and environment put on the input ports in the coming cycles, the next one first
  (log 2). -/
  script    : List PortIn
  /-- MODEL'S OWN: how many free values have been drawn (log 6). -/
  freeCtr   : Nat
  deriving DecidableEq, Repr

/-- Reasons to stop with a fault: none. The spec's one exception, PhaseMismatch, is a next state (60_exceptions.md
R190, R193), and nothing else is raised (R192). -/
inductive Fault where
  deriving DecidableEq, Repr

/-- Reasons to refuse. -/
inductive Refusal where
  /-- Raised by `exec` for an instruction that has no meaning yet; no arm does. Safe. -/
  | notModelled (mnemonic : String)
  /-- Raised by `step` for a fetched word that the decoder rejects; no state has one, since `ph` holds only the nine
  phases of 10_state.md R23. Safe. -/
  | undecodable (why : DecodeError)
  deriving DecidableEq, Repr

/-- Input ports on which nothing happens: no reset, no command, no completion (log 5). -/
def PortIn.silent : PortIn where
  rst      := false
  cmdValid := false
  cmd      := 0
  peDone   := false
  peStatus := 0
  peRxdata := 0
  decIn    := 0
  encIn    := 0
  wc       := { second := 0, minute := 0, hour := 0, weekday := 0, day := 0, month := 0, year := 0 }

/-- The machine right after reset (10_state.md R39). `buf` has no reset value in the spec: 0x00 is named in log 3;
the ports are named in log 5, the model's own fields in logs 2 and 6. -/
def State.reset : State where
  ph        := .idle
  idx       := 0
  op        := .read
  ra        := 0
  cnt       := 0
  wd        := 0
  txd       := 0
  act       := .noAct
  buf       := { b0 := 0, b1 := 0, b2 := 0, b3 := 0, b4 := 0, b5 := 0, b6 := 0 }
  settle    := 0
  resCode   := .noResult
  resTag    := .noTag
  resIdx    := 0
  resStatus := 0
  port      := PortIn.silent
  codec     :=
    { decOut := 0
      encOut := 0
      blkOut := { b0 := 0, b1 := 0, b2 := 0, b3 := 0x01, b4 := 0, b5 := 0x01, b6 := 0x48 }
      t      := { second := 0, minute := 0, hour := 0, weekday := 255, day := 0, month := 255, year := 2000 }
      tFv    := 0b1000111
      tValid := false
      tCh    := false }
  script    := []
  freeCtr   := 0

end Sys2Proof.Machine
end

