-- ==== Sys2Proof/Machine/Params.lean ====
section
/-! DEFINITION. The fixed parameters of 00_scope.md R9, each under its own name. The seven status numbers, and the
direction bit, are general knowledge by the spec's own word (93_implementation_defined.md G1, G2; log 8). -/

namespace Sys2Proof.Machine

/-- `DEV_ADDR` (00_scope.md R9; 30_encoding.md R83). -/
def devAddr : BitVec 7 := 0b1101000

/-- `DIR_W` (00_scope.md R9). -/
def dirW : BitVec 1 := 0

/-- `DIR_R` (00_scope.md R9). -/
def dirR : BitVec 1 := 1

/-- The address byte: the device address with the direction bit appended (30_encoding.md R83, R78). -/
def addressByte (dir : BitVec 1) : Byte := devAddr ++ dir

/-- `SLA_W` (00_scope.md R9). -/
def slaW : Byte := addressByte dirW

/-- `SLA_R` (00_scope.md R9). -/
def slaR : Byte := addressByte dirR

/-- `CENTURY` (00_scope.md R9). -/
def century : Nat := 2000

/-- `RTC_BASE` (00_scope.md R9). -/
def rtcBase : Byte := 0x00

/-- `RTC_NREGS`, which is also `MAXCOUNT` (00_scope.md R9). -/
def rtcNRegs : Byte := 7

/-- `ST_START`, "start condition sent" (30_encoding.md R84). -/
def stStart : Byte := 0x08

/-- `ST_RSTART`, "repeated start sent" (30_encoding.md R84). -/
def stRstart : Byte := 0x10

/-- `ST_SLAW_ACK`, "address+write acknowledged" (30_encoding.md R84). -/
def stSlawAck : Byte := 0x18

/-- `ST_TXDATA_ACK`, "data byte transmitted, acknowledged" (30_encoding.md R84). -/
def stTxdataAck : Byte := 0x28

/-- `ST_SLAR_ACK`, "address+read acknowledged" (30_encoding.md R84). -/
def stSlarAck : Byte := 0x40

/-- `ST_RXDATA_ACK`, "data byte received, acknowledge sent" (30_encoding.md R84). -/
def stRxdataAck : Byte := 0x50

/-- `ST_RXDATA_NACK`, "data byte received, not-acknowledged" (30_encoding.md R84). -/
def stRxdataNack : Byte := 0x58

end Sys2Proof.Machine
end

