-- ==== Sys2Proof/Machine/Operands.lean ====
section
/-! DEFINITION. Operands and the codec's arithmetic: access to `buf` (10_state.md R25), the numeric codes of the
enumerated registers (30_encoding.md R79 to R82), the output ports that are functions of registers (10_state.md
R34, R35), and the value functions of `DEC`, `ENC`, `DECT`, `ENCT` (42_bcd_codec.md). -/

namespace Sys2Proof.Machine

/-- `buf[i]` for the seven indexes there are (10_state.md R25). -/
def readByte (blk : Block) (i : Fin 7) : Byte :=
  match i with
  | 0 => blk.b0
  | 1 => blk.b1
  | 2 => blk.b2
  | 3 => blk.b3
  | 4 => blk.b4
  | 5 => blk.b5
  | 6 => blk.b6

/-- `buf[i] <- d`. There is no `buf[7]`: an index of 7, which no run reaches, names no byte (log 12). -/
def writeByte (blk : Block) (i : BitVec 3) (d : Byte) : Block where
  b0 := if i = 0 then d else blk.b0
  b1 := if i = 1 then d else blk.b1
  b2 := if i = 2 then d else blk.b2
  b3 := if i = 3 then d else blk.b3
  b4 := if i = 4 then d else blk.b4
  b5 := if i = 5 then d else blk.b5
  b6 := if i = 6 then d else blk.b6

/-- The code of a phase in register `ph` (30_encoding.md R80). -/
def phaseCode : Phase → BitVec 4
  | .idle    => 0
  | .pStart  => 1
  | .pSlaw   => 2
  | .pReg    => 3
  | .pRstart => 4
  | .pSlar   => 5
  | .pRxdata => 6
  | .pWdata  => 7
  | .pSettle => 8

/-- The code of an action in register `act` (30_encoding.md R79). -/
def actCode : Act → BitVec 3
  | .noAct => 0
  | .start => 1
  | .tx    => 2
  | .rxa   => 3
  | .rxn   => 4
  | .stop  => 5

/-- The code of a failure tag (30_encoding.md R81). -/
def tagCode : Tag → BitVec 3
  | .noTag    => 0
  | .start    => 1
  | .addrWAck => 2
  | .addrWReg => 3
  | .rstart   => 4
  | .addrRAck => 5
  | .dataByte => 6
  | .stop     => 7

/-- The code of a result (30_encoding.md R82). -/
def resCodeBits : ResCode → BitVec 2
  | .noResult => 0
  | .ok       => 1
  | .fail     => 2
  | .rejected => 3

/-- Port `pe_req` (10_state.md R26, R35). -/
def peReq (s : State) : Bool := decide (s.act ≠ .noAct)

/-- Port `pe_action` (10_state.md R26, R35). -/
def peAction (s : State) : BitVec 3 := actCode s.act

/-- Port `pe_txdata` (10_state.md R24, R35). -/
def peTxdata (s : State) : Byte := s.txd

/-- Port `rd_data` (10_state.md R34; 20_memory.md R57). -/
def rdData (s : State) : BitVec 56 := s.buf.pack

/-- Port `blk_out`, packed as `rd_data` is (10_state.md R36; 20_memory.md R57). -/
def blkOut (s : State) : BitVec 56 := s.codec.blkOut.pack

/-- Tens digit of a `BCD8` byte (30_encoding.md R85). -/
def tens (b : Byte) : Nat := (b.extractLsb' 4 4).toNat

/-- Units digit of a `BCD8` byte (30_encoding.md R85). -/
def units (b : Byte) : Nat := (b.extractLsb' 0 4).toNat

/-- `DEC` (42_bcd_codec.md R162): at most 165, so 8 bits hold it. -/
def decByte (b : Byte) : Byte := BitVec.ofNat 8 (tens b * 10 + units b)

/-- `ENC` (42_bcd_codec.md R166). `hi` is the free value that stands in the high nibble for an operand of 100 or
more (93_implementation_defined.md U2; log 6). -/
def encByte (hi : BitVec 4) (v : Byte) : Byte :=
  (if v.toNat ≤ 99 then BitVec.ofNat 4 (v.toNat / 10) else hi) ++ BitVec.ofNat 4 (v.toNat % 10)

/-- The seconds byte without the clock-halt flag (42_bcd_codec.md R174). -/
def maskSeconds (b : Byte) : Byte := b &&& 0x7F

/-- `DECT` (42_bcd_codec.md R178): weekday and month less 1 modulo 2^8, year from 2000. -/
def decodeBlock (blk : Block) : WallClock where
  second  := decByte (maskSeconds blk.b0)
  minute  := decByte blk.b1
  hour    := decByte blk.b2
  weekday := decByte blk.b3 - 1
  day     := decByte blk.b4
  month   := decByte blk.b5 - 1
  year    := BitVec.ofNat 12 (century + (decByte blk.b6).toNat)

/-- `ENCT` (42_bcd_codec.md R186). The seven `ENC`s take the free values `k` to `k + 6`. -/
def encodeClock (k : Nat) (wc : WallClock) : Block where
  b0 := encByte (Config.freeNibble k) wc.second
  b1 := encByte (Config.freeNibble (k + 1)) wc.minute
  b2 := encByte (Config.freeNibble (k + 2)) wc.hour
  b3 := encByte (Config.freeNibble (k + 3)) (wc.weekday + 1)
  b4 := encByte (Config.freeNibble (k + 4)) wc.day
  b5 := encByte (Config.freeNibble (k + 5)) (wc.month + 1)
  b6 := encByte (Config.freeNibble (k + 6)) ((wc.year - BitVec.ofNat 12 century).setWidth 8)

end Sys2Proof.Machine
end

