-- ==== Sys2Proof/Machine/Flags.lean ====
section
/-! DEFINITION. Every flag of the block: the three derived flags (10_state.md R33) and the codec's constraint flags
(42_bcd_codec.md R182, R183, R184). -/

namespace Sys2Proof.Machine

/-- `busy` (10_state.md R33). -/
def busy (s : State) : Bool := decide (s.ph ≠ .idle)

/-- `cmd_ready` (10_state.md R33). -/
def cmdReady (s : State) : Bool := decide (s.ph = .idle)

/-- `done` (10_state.md R33). -/
def done (s : State) : Bool := decide (s.ph = .idle ∧ s.resCode ≠ .noResult)

/-- `t_fv[0]`: seconds, bit 7 ignored, 0..59 (42_bcd_codec.md R182; log 18). -/
def secondsOk (b : Byte) : Bool := decide (units b ≤ 9 ∧ (b.extractLsb' 4 3).toNat ≤ 5)

/-- `t_fv[1]`: minutes, 0..59 (42_bcd_codec.md R182; log 18). -/
def minutesOk (b : Byte) : Bool := decide (units b ≤ 9 ∧ tens b ≤ 5)

/-- `t_fv[2]`: hours, 0..23 (42_bcd_codec.md R182). -/
def hoursOk (b : Byte) : Bool := decide (units b ≤ 9 ∧ tens b ≤ 2 ∧ (decByte b).toNat ≤ 23)

/-- `t_fv[3]`: weekday, 1..7 (42_bcd_codec.md R182). -/
def weekdayOk (b : Byte) : Bool := decide (tens b = 0 ∧ 1 ≤ units b ∧ units b ≤ 7)

/-- `t_fv[4]`: day of month, 1..31 (42_bcd_codec.md R182). -/
def dayOk (b : Byte) : Bool :=
  decide (units b ≤ 9 ∧ tens b ≤ 9 ∧ 1 ≤ (decByte b).toNat ∧ (decByte b).toNat ≤ 31)

/-- `t_fv[5]`: month, 1..12 (42_bcd_codec.md R182). -/
def monthOk (b : Byte) : Bool :=
  decide (units b ≤ 9 ∧ tens b ≤ 9 ∧ 1 ≤ (decByte b).toNat ∧ (decByte b).toNat ≤ 12)

/-- `t_fv[6]`: year within century, 0..99 (42_bcd_codec.md R182). -/
def yearOk (b : Byte) : Bool := decide (units b ≤ 9 ∧ tens b ≤ 9)

/-- `t_fv[6:0]`, bit 0 the seconds and bit 6 the year (42_bcd_codec.md R182). -/
def fieldValid (blk : Block) : BitVec 7 :=
  BitVec.ofBool (yearOk blk.b6) ++ BitVec.ofBool (monthOk blk.b5) ++ BitVec.ofBool (dayOk blk.b4) ++
    BitVec.ofBool (weekdayOk blk.b3) ++ BitVec.ofBool (hoursOk blk.b2) ++ BitVec.ofBool (minutesOk blk.b1) ++
    BitVec.ofBool (secondsOk blk.b0)

/-- `t_valid`: all seven flags (42_bcd_codec.md R183). -/
def blockValid (blk : Block) : Bool := decide (fieldValid blk = 0b1111111)

/-- `t_ch`, the clock-halt flag (42_bcd_codec.md R184). -/
def clockHalt (blk : Block) : Bool := blk.b0.getLsbD 7

end Sys2Proof.Machine
end

