-- ==== Sys2Proof/Machine/Ops.lean ====
section
/-! DEFINITION. The named operations over registers that the meanings share: emitting an action (41_phases.md R130),
TAKING THE ONE EXCEPTION (`abort`, 60_exceptions.md R193) and what leaves the failed state (`clearResult`, R200),
acceptance and rejection (40_transactions.md R105, R106, R112, R118), and the three parts every waiting phase has
(41_phases.md R125). -/

namespace Sys2Proof.Machine

/-- `emit A` for an action without a byte (41_phases.md R130). -/
def emit (a : Act) (s : State) : State := { s with act := a }

/-- `emit TX(d)`: the byte goes to `txd` in the same step (41_phases.md R130, R127). -/
def emitTx (d : Byte) (s : State) : State := { s with act := .tx, txd := d }

/-- A step that emits nothing writes `act <- 0` (10_state.md R26). -/
def emitNone (s : State) : State := emit .noAct s

/-- `abort(tag, n, s)`, the only trap entry (60_exceptions.md R193). -/
def abort (tag : Tag) (n : BitVec 3) (status : Byte) (s : State) : State :=
  emitNone { s with resCode := .fail, resTag := tag, resIdx := n, resStatus := status, ph := .idle }

/-- What the acceptance of a legal command does to a recorded failure: there is no return instruction, the result
registers are cleared (60_exceptions.md R200; 40_transactions.md R106, R112). -/
def clearResult (s : State) : State :=
  { s with resCode := .noResult, resTag := .noTag, resIdx := 0, resStatus := 0 }

/-- The acceptance step shared by both commands: latch the operands, clear the result, emit `START`, enter
`P_START` (40_transactions.md R106, R112). -/
def accept (op : Op) (ra : Byte) (cnt : BitVec 3) (wd : Byte) (s : State) : State :=
  emit .start { clearResult s with op := op, ra := ra, cnt := cnt, wd := wd, idx := 0, ph := .pStart }

/-- A reserved encoding is rejected in one step (40_transactions.md R118). -/
def reject (s : State) : State := emitNone { clearResult s with resCode := .rejected }

/-- `READ ra, n` presented in `IDLE`: the reserved-encoding check comes before any latch (40_transactions.md R106,
R118; 60_exceptions.md R199). -/
def acceptRead (ra n : Byte) (s : State) : State :=
  if legalCount n then accept .read ra (n.extractLsb' 0 3) 0 s else reject s

/-- `WRITE ra, v` presented in `IDLE` (40_transactions.md R112). -/
def acceptWrite (ra v : Byte) (s : State) : State := accept .write ra 1 v s

/-- The three parts of a waiting phase `p` (41_phases.md R125): without a completion it waits and changes nothing
but `act`; on `DONE(s, d)` it compares all eight bits of `s` with `expected`, does `work` on a match, aborts with
`tag` and `n` otherwise. While `ph` names another phase it is not running and nothing happens (log 11). -/
def awaitDone (p : Phase) (expected : Byte) (tag : Tag) (n : BitVec 3) (work : State → State) (s : State) : State :=
  if s.ph = p then
    if s.port.peDone then
      if s.port.peStatus = expected then work s else abort tag n s.port.peStatus s
    else emitNone s
  else s

/-- The byte in flight is the last of the READ: `idx = cnt - 1` (41_phases.md R140; log 12). -/
def lastByte (s : State) : Bool := decide (s.idx.toNat + 1 = s.cnt.toNat)

/-- The byte after the one in flight is the last: `idx + 1 = cnt - 1` (41_phases.md R140; log 12). -/
def nextIsLast (s : State) : Bool := decide (s.idx.toNat + 2 = s.cnt.toNat)

/-- `buf[idx] <- d` (41_phases.md R140). -/
def capture (s : State) : State := { s with buf := writeByte s.buf s.idx s.port.peRxdata }

/-- A transaction ends with success: `res_code <- OK ; ph <- IDLE` (41_phases.md R140, R146). -/
def succeed (s : State) : State := { s with resCode := .ok, ph := .idle }

end Sys2Proof.Machine
end

