-- ==== Sys2Proof/Machine/Codec.lean ====
section
/-! DEFINITION. The five codec functions (42_bcd_codec.md): each drives its own output ports (10_state.md R36) and
writes no register. -/

namespace Sys2Proof.Machine

/-- `dec_in` carries `b`, `dec_out` follows (42_bcd_codec.md R162). -/
def driveDec (b : Byte) (s : State) : State :=
  { s with port := { s.port with decIn := b }, codec := { s.codec with decOut := decByte b } }

/-- `enc_in` carries `v`, `enc_out` follows; one free value is drawn (42_bcd_codec.md R166; log 6). -/
def driveEnc (v : Byte) (s : State) : State :=
  { s with
    port := { s.port with encIn := v }
    codec := { s.codec with encOut := encByte (Config.freeNibble s.freeCtr) v }
    freeCtr := s.freeCtr + 1 }

/-- The `t_*` time fields show `DECT` of the block (42_bcd_codec.md R178). -/
def driveDect (blk : Block) (s : State) : State := { s with codec := { s.codec with t := decodeBlock blk } }

/-- `t_fv`, `t_valid`, `t_ch` show `VAL` of the block (42_bcd_codec.md R182, R183, R184). -/
def driveVal (blk : Block) (s : State) : State :=
  { s with codec := { s.codec with tFv := fieldValid blk, tValid := blockValid blk, tCh := clockHalt blk } }

/-- The `wc_*` ports carry `wc`, `blk_out` follows; seven free values are drawn (42_bcd_codec.md R186; log 6). -/
def driveEnct (wc : WallClock) (s : State) : State :=
  { s with
    port := { s.port with wc := wc }
    codec := { s.codec with blkOut := encodeClock s.freeCtr wc }
    freeCtr := s.freeCtr + 7 }

/-- `DEC b` (42_bcd_codec.md R162). -/
def execDec (b : Byte) (s : State) : Host.Outcome State Fault Refusal := .next (driveDec b s)

/-- `ENC v` (42_bcd_codec.md R166). -/
def execEnc (v : Byte) (s : State) : Host.Outcome State Fault Refusal := .next (driveEnc v s)

/-- `DECT` (42_bcd_codec.md R178). -/
def execDect (blk : Block) (s : State) : Host.Outcome State Fault Refusal := .next (driveDect blk s)

/-- `VAL` (42_bcd_codec.md R182, R183, R184). -/
def execVal (blk : Block) (s : State) : Host.Outcome State Fault Refusal := .next (driveVal blk s)

/-- `ENCT wc` (42_bcd_codec.md R186). -/
def execEnct (wc : WallClock) (s : State) : Host.Outcome State Fault Refusal := .next (driveEnct wc s)

end Sys2Proof.Machine
end

