-- ==== Sys2Proof/Machine/Cycle.lean ====
section
/-! DEFINITION. What surrounds the instruction of a clock cycle: reset (70_reset_and_hazards.md R220), the choice of
what runs (41_phases.md R152), the input values of the next cycle (log 2) and the codec's combinational outputs
(10_state.md R36; 30_encoding.md R100). -/

namespace Sys2Proof.Machine

/-- The rising edge with `rst = 1`: every register but `buf` (70_reset_and_hazards.md R220). -/
def resetEdge (s : State) : State :=
  { clearResult s with
    ph := .idle, idx := 0, op := .read, ra := 0, cnt := 0, wd := 0, txd := 0, act := .noAct, settle := 0 }

/-- Where the next instruction stands: on port `cmd` when a command is presented in `IDLE`, else in the phase
register (41_phases.md R152 (2) to (5); 30_encoding.md R100). -/
def fetchWord (s : State) : PortWord :=
  if s.ph = .idle ∧ s.port.cmdValid then .cmd s.port.cmd else .phase (phaseCode s.ph)

/-- The input ports after the script has run out: no reset, no command, no completion, the other values held
(log 2). -/
def hush (p : PortIn) : PortIn := { p with rst := false, cmdValid := false, peDone := false }

/-- The input values of the next cycle. -/
def nextPort (s : State) : PortIn := s.script.headD (hush s.port)

/-- The next cycle begins: its input values are on the ports (log 2). -/
def advance (s : State) : State := { s with port := nextPort s, script := s.script.tail }

/-- All five codec functions at work on the ports and on `buf`: they are "executed" all the time (30_encoding.md
R100; 92_eei_decisions.md D30). -/
def driveCodec (s : State) : State :=
  driveEnct s.port.wc (driveVal s.buf (driveDect s.buf (driveEnc s.port.encIn (driveDec s.port.decIn s))))

/-- What follows the edge: the next cycle's inputs, and the outputs that depend on them. -/
def endCycle (s : State) : State := driveCodec (advance s)

/-- The phase that has a code (30_encoding.md R80); codes 9 to 15 have none. -/
def phaseOfCode (code : BitVec 4) : Option Phase :=
  match code.toNat with
  | 0 => some .idle
  | 1 => some .pStart
  | 2 => some .pSlaw
  | 3 => some .pReg
  | 4 => some .pRstart
  | 5 => some .pSlar
  | 6 => some .pRxdata
  | 7 => some .pWdata
  | 8 => some .pSettle
  | _ => none

/-- The action that has a code (30_encoding.md R79); codes 6 and 7 have none. -/
def actOfCode (code : BitVec 3) : Option Act :=
  match code.toNat with
  | 0 => some .noAct
  | 1 => some .start
  | 2 => some .tx
  | 3 => some .rxa
  | 4 => some .rxn
  | 5 => some .stop
  | _ => none

/-- Change the input values of the next cycle. -/
def onNextPort (f : PortIn → PortIn) (s : State) : State := { s with script := f (nextPort s) :: s.script.tail }

/-- Put a word where the next step finds it (log 14): a command is presented in `IDLE`; a phase is entered; a block
is in `buf`; a codec operand is on its port in the cycle the step leads to. An action is issued by the phase rules
and never fetched, so its word goes where actions stand, `act` and `txd` (log 13). -/
def placeWord (pw : PortWord) (s : State) : State :=
  match pw with
  | .cmd w => { s with ph := .idle, port := { s.port with rst := false, cmdValid := true, cmd := w } }
  | .phase c =>
    match phaseOfCode c with
    | some p => { s with ph := p, port := { s.port with rst := false, cmdValid := false } }
    | none => s
  | .act c d =>
    match actOfCode c with
    | some .tx => emitTx d s
    | some a => emit a s
    | none => s
  | .decIn b => onNextPort (fun p => { p with decIn := b }) s
  | .encIn v => onNextPort (fun p => { p with encIn := v }) s
  | .dectIn w | .valIn w =>
    { s with buf := Block.unpack w, ph := .idle, port := { s.port with rst := false, cmdValid := false } }
  | .wcIn w => onNextPort (fun p => { p with wc := WallClock.unpack w }) s

end Sys2Proof.Machine
end

