-- ==== Sys2Proof/Machine/Actions.lean ====
section
/-! DEFINITION. The phase-engine actions (41_phases.md R128, R130): issuing one is `emit`. What the engine then does
on the wires is the environment's (41_phases.md R154; log 13, log 16). -/

namespace Sys2Proof.Machine

/-- `ACT_NONE`: nothing is asked of the engine (41_phases.md R130). -/
def execActNone (s : State) : Host.Outcome State Fault Refusal := .next (emitNone s)

/-- `ACT_START`: a start, or a repeated start if no stop was issued since the last (41_phases.md R128, R129). -/
def execActStart (s : State) : Host.Outcome State Fault Refusal := .next (emit .start s)

/-- `ACT_TX`: transmit byte `d` (41_phases.md R128). -/
def execActTx (d : Byte) (s : State) : Host.Outcome State Fault Refusal := .next (emitTx d s)

/-- `ACT_RXA`: receive a byte and acknowledge it (41_phases.md R128). -/
def execActRxa (s : State) : Host.Outcome State Fault Refusal := .next (emit .rxa s)

/-- `ACT_RXN`: receive a byte and do not acknowledge it (41_phases.md R128). -/
def execActRxn (s : State) : Host.Outcome State Fault Refusal := .next (emit .rxn s)

/-- `ACT_STOP`: generate a stop condition (41_phases.md R128, R144). -/
def execActStop (s : State) : Host.Outcome State Fault Refusal := .next (emit .stop s)

end Sys2Proof.Machine
end

