-- ==== Sys2Proof/Machine/Commands.lean ====
section
/-! DEFINITION. The two host commands (40_transactions.md). A command acts only while `ph = IDLE`; presented at any
other time it "has no effect of any kind" (R119). -/

namespace Sys2Proof.Machine

/-- `READ ra, n` (40_transactions.md R106, R118, R119). -/
def execRead (ra n : Byte) (s : State) : Host.Outcome State Fault Refusal :=
  .next (if s.ph = .idle then acceptRead ra n s else s)

/-- `WRITE ra, v` (40_transactions.md R112, R119). -/
def execWrite (ra v : Byte) (s : State) : Host.Outcome State Fault Refusal :=
  .next (if s.ph = .idle then acceptWrite ra v s else s)

end Sys2Proof.Machine
end

