-- ==== Sys2Proof/Machine/Phases.lean ====
section
/-! DEFINITION. The nine phases (41_phases.md): what one clock cycle spent in each does. -/

namespace Sys2Proof.Machine

/-- `IDLE`: accept or reject the command on port `cmd`, if one is presented; otherwise nothing but `act <- 0`
(40_transactions.md R105; 41_phases.md R152 (2), (5)). `pe_done` is not looked at (R148). -/
def execIdle (s : State) : Host.Outcome State Fault Refusal :=
  .next (
    if s.ph = .idle then
      if s.port.cmdValid then
        if s.port.cmd.extractLsb' 16 1 = 1#1 then
          acceptWrite (s.port.cmd.extractLsb' 8 8) (s.port.cmd.extractLsb' 0 8) s
        else acceptRead (s.port.cmd.extractLsb' 8 8) (s.port.cmd.extractLsb' 0 8) s
      else emitNone s
    else s)

/-- `P_START` (41_phases.md R132). -/
def execPStart (s : State) : Host.Outcome State Fault Refusal :=
  .next (awaitDone .pStart stStart .start 0 (fun s => emitTx slaW { s with ph := .pSlaw }) s)

/-- `P_SLAW` (41_phases.md R134). -/
def execPSlaw (s : State) : Host.Outcome State Fault Refusal :=
  .next (awaitDone .pSlaw stSlawAck .addrWAck 0 (fun s => emitTx s.ra { s with ph := .pReg }) s)

/-- `P_REG`, where READ and WRITE part (41_phases.md R136). -/
def execPReg (s : State) : Host.Outcome State Fault Refusal :=
  .next (awaitDone .pReg stTxdataAck .addrWReg 0
    (fun s =>
      match s.op with
      | .read => emit .start { s with ph := .pRstart }
      | .write => emitTx s.wd { s with ph := .pWdata }) s)

/-- `P_RSTART` (41_phases.md R138). -/
def execPRstart (s : State) : Host.Outcome State Fault Refusal :=
  .next (awaitDone .pRstart stRstart .rstart 0 (fun s => emitTx slaR { s with ph := .pSlar }) s)

/-- `P_SLAR` (41_phases.md R139). -/
def execPSlar (s : State) : Host.Outcome State Fault Refusal :=
  .next (awaitDone .pSlar stSlarAck .addrRAck 0
    (fun s => emit (if s.cnt = 1 then .rxn else .rxa) { s with ph := .pRxdata }) s)

/-- `P_RXDATA`: the status is compared first, and the byte is captured only on a match (41_phases.md R140). -/
def execPRxdata (s : State) : Host.Outcome State Fault Refusal :=
  .next (awaitDone .pRxdata (if lastByte s then stRxdataNack else stRxdataAck) .dataByte s.idx
    (fun s =>
      if lastByte s then emit .stop (succeed (capture s))
      else emit (if nextIsLast s then .rxn else .rxa) { capture s with idx := s.idx + 1 }) s)

/-- `P_WDATA` (41_phases.md R142). -/
def execPWdata (s : State) : Host.Outcome State Fault Refusal :=
  .next (awaitDone .pWdata stTxdataAck .dataByte 0
    (fun s => emit .stop { s with settle := Config.tSettle, ph := .pSettle }) s)

/-- `P_SETTLE`: count down, then the event `SETTLED` (41_phases.md R146). `pe_done` is not looked at (R148). -/
def execPSettle (s : State) : Host.Outcome State Fault Refusal :=
  .next (
    if s.ph = .pSettle then
      if s.settle = 0 then emitNone (succeed s) else emitNone { s with settle := s.settle - 1 }
    else s)

end Sys2Proof.Machine
end

