-- ==== Sys2Proof/Machine/Dispatch.lean ====
section
/-! DEFINITION. One arm per constructor of `Instr`: a direct call of its meaning. -/

namespace Sys2Proof.Machine

def exec (i : Instr) (s : State) : Host.Outcome State Fault Refusal :=
  match i with
  | .read ra n => Sys2Proof.Machine.execRead ra n s
  | .write ra v => Sys2Proof.Machine.execWrite ra v s
  | .idle => Sys2Proof.Machine.execIdle s
  | .pStart => Sys2Proof.Machine.execPStart s
  | .pSlaw => Sys2Proof.Machine.execPSlaw s
  | .pReg => Sys2Proof.Machine.execPReg s
  | .pRstart => Sys2Proof.Machine.execPRstart s
  | .pSlar => Sys2Proof.Machine.execPSlar s
  | .pRxdata => Sys2Proof.Machine.execPRxdata s
  | .pWdata => Sys2Proof.Machine.execPWdata s
  | .pSettle => Sys2Proof.Machine.execPSettle s
  | .actNone => Sys2Proof.Machine.execActNone s
  | .actStart => Sys2Proof.Machine.execActStart s
  | .actTx d => Sys2Proof.Machine.execActTx d s
  | .actRxa => Sys2Proof.Machine.execActRxa s
  | .actRxn => Sys2Proof.Machine.execActRxn s
  | .actStop => Sys2Proof.Machine.execActStop s
  | .dec b => Sys2Proof.Machine.execDec b s
  | .enc v => Sys2Proof.Machine.execEnc v s
  | .dect blk => Sys2Proof.Machine.execDect blk s
  | .val blk => Sys2Proof.Machine.execVal blk s
  | .enct wc => Sys2Proof.Machine.execEnct wc s

end Sys2Proof.Machine
end

