-- ==== Sys2Proof/Machine/Step.lean ====
section
/-! DEFINITION. One step is one rising edge of `clk` (41_phases.md R152) and the beginning of the next cycle. -/

namespace Sys2Proof.Machine

/-- `rst` first; else the word that stands where the next instruction stands is decoded and run (41_phases.md R152);
then the next cycle begins (`endCycle`). -/
def step (s : State) : Host.Outcome State Fault Refusal :=
  if s.port.rst then .next (endCycle (resetEdge s))
  else
    match decode (fetchWord s) with
    | .ok i =>
      match exec i s with
      | .next t => .next (endCycle t)
      | .fault f => .fault f
      | .refused r => .refused r
    | .error e => .refused (.undecodable e)

/-- `s` with a word of the opcode table placed where the next step finds it (log 14, log 15). -/
def State.withFetchWord (s : State) (nbits w : Nat) : State :=
  match tableWord nbits w with
  | some pw => placeWord pw s
  | none => s

end Sys2Proof.Machine
end

