-- ==== Sys2Proof/Safety.lean ====
section
/-! DEFINITION. The terms claims use: the invariant (10_state.md R40), the waiting phases and what each expects
(41_phases.md R131; 60_exceptions.md R191), whole transactions as the host sees them (40_transactions.md R107, R113,
R120), the duties of host and engine (41_phases.md R126; 70_reset_and_hazards.md R230), and when the decoded time
means a time (R236). -/

namespace Sys2Proof.Machine

/-- The phases that wait for a completion, `P_START` to `P_WDATA` (10_state.md R23). -/
def waiting : Phase → Bool
  | .idle | .pSettle => false
  | .pStart | .pSlaw | .pReg | .pRstart | .pSlar | .pRxdata | .pWdata => true

/-- The instruction that is a phase's row. -/
def phaseInstr : Phase → Instr
  | .idle => .idle
  | .pStart => .pStart
  | .pSlaw => .pSlaw
  | .pReg => .pReg
  | .pRstart => .pRstart
  | .pSlar => .pSlar
  | .pRxdata => .pRxdata
  | .pWdata => .pWdata
  | .pSettle => .pSettle

/-- `exp(ph)`, the one status expected (41_phases.md R131). -/
def expectedStatus (s : State) : Option Byte :=
  match s.ph with
  | .pStart => some stStart
  | .pSlaw => some stSlawAck
  | .pReg => some stTxdataAck
  | .pRstart => some stRstart
  | .pSlar => some stSlarAck
  | .pRxdata => some (if s.idx.toNat + 1 = s.cnt.toNat then stRxdataNack else stRxdataAck)
  | .pWdata => some stTxdataAck
  | .idle | .pSettle => none

/-- The tag of a mismatch in a phase (60_exceptions.md R191). -/
def tagOfPhase : Phase → Tag
  | .pStart => .start
  | .pSlaw => .addrWAck
  | .pReg => .addrWReg
  | .pRstart => .rstart
  | .pSlar => .addrRAck
  | .pRxdata | .pWdata => .dataByte
  | .idle | .pSettle => .noTag

/-- A completion has come and its status is not the expected one: what raises PhaseMismatch (60_exceptions.md
R191). -/
def mismatch (s : State) : Prop :=
  s.port.peDone = true ∧ ∃ e, expectedStatus s = some e ∧ s.port.peStatus ≠ e

/-- The invariant: 10_state.md R40 (b) to (g), and what makes it hold of the next step: `idx` is 0 outside
`P_RXDATA` while a transaction runs (10_state.md R27), never above 6, and the settle timer is 0 outside
`P_SETTLE` and never above `T_SETTLE` (R28). R40 (a) is in the type of `ph`. -/
structure LegalState (s : State) : Prop where
  idx_le_six : s.idx.toNat ≤ 6
  cnt_legal : s.ph = .idle ∨ 1 ≤ s.cnt.toNat
  rxdata_in_range : s.ph = .pRxdata → s.op = .read ∧ s.idx.toNat < s.cnt.toNat
  read_phases : s.ph = .pRstart ∨ s.ph = .pSlar → s.op = .read
  write_phases : s.ph = .pWdata ∨ s.ph = .pSettle → s.op = .write
  idx_zero : s.ph ≠ .idle → s.ph ≠ .pRxdata → s.idx = 0
  write_cnt : s.ph ≠ .idle → s.op = .write → s.cnt = 1
  result_only_idle : s.resCode ≠ .noResult → s.ph = .idle
  tag_only_fail : s.resTag ≠ .noTag → s.resCode = .fail
  tag_never_stop : s.resTag ≠ .stop
  settle_zero : s.ph ≠ .pSettle → s.settle = 0
  settle_bounded : s.settle ≤ Config.tSettle

/-- The codec's outputs are the functions of the block's ports and of `buf` that 10_state.md R36 says; where `ENC`
is open, only its low nibble is said (42_bcd_codec.md R166). -/
structure CodecFollows (s : State) : Prop where
  dec : s.codec.decOut = decByte s.port.decIn
  enc_low : s.codec.encOut.extractLsb' 0 4 = BitVec.ofNat 4 (s.port.encIn.toNat % 10)
  enc_high : s.port.encIn.toNat ≤ 99 → s.codec.encOut.extractLsb' 4 4 = BitVec.ofNat 4 (s.port.encIn.toNat / 10)
  blk : ∃ k, s.codec.blkOut = encodeClock k s.port.wc
  time : s.codec.t = decodeBlock s.buf
  flags : s.codec.tFv = fieldValid s.buf
  valid : s.codec.tValid = blockValid s.buf
  halt : s.codec.tCh = clockHalt s.buf

/-- The five actions as output events (00_scope.md R15; 41_phases.md R128). -/
inductive Action where
  | start
  | tx (d : Byte)
  | rxa
  | rxn
  | stop
  deriving DecidableEq, Repr

/-- The action that stands on the engine port in this cycle (10_state.md R26, R35). -/
def issued (s : State) : Option Action :=
  match s.act with
  | .noAct => none
  | .start => some .start
  | .tx => some (.tx s.txd)
  | .rxa => some .rxa
  | .rxn => some .rxn
  | .stop => some .stop

/-- The events of a trace (00_scope.md R15). -/
inductive Event where
  /-- `RST`. -/
  | rst
  /-- `CMD(...)`: the command taken in `IDLE`, accepted or rejected. -/
  | cmd (i : Instr)
  /-- `DONE(s, d)`. -/
  | done (status rxdata : Byte)
  /-- `SETTLED`. -/
  | settled
  /-- One of the five actions, as issued. -/
  | action (a : Action)
  /-- `RESULT(...)`: the result registers as they stand when `ph` returns to `IDLE`, or when a command is rejected. -/
  | result (code : ResCode) (tag : Tag) (n : BitVec 3) (status : Byte)
  deriving DecidableEq, Repr

/-- The event that the edge at the end of this cycle takes in, if any (00_scope.md R15; 41_phases.md R152). -/
def inputEvent (s : State) : Option Event :=
  if s.port.rst then some .rst
  else
    match s.ph with
    | .idle => if s.port.cmdValid then some (.cmd (decodeCmd s.port.cmd)) else none
    | .pSettle => if s.settle = 0 then some .settled else none
    | .pStart | .pSlaw | .pReg | .pRstart | .pSlar | .pRxdata | .pWdata =>
      if s.port.peDone then some (.done s.port.peStatus s.port.peRxdata) else none

/-- The edge from `s` to `t` reports a result: `ph` returns to `IDLE`, or a command is rejected there (00_scope.md
R15). -/
abbrev reportsResult (s t : State) : Prop :=
  s.port.rst = false ∧ t.ph = .idle ∧ (s.ph ≠ .idle ∨ s.port.cmdValid = true)

/-- The events that the edge from `s` to `t` puts out: the action issued and the result reported (00_scope.md
R15). -/
def outputEvents (s t : State) : List Event :=
  (issued t).toList.map .action ++
    if reportsResult s t then [.result t.resCode t.resTag t.resIdx t.resStatus] else []

/-- `k` steps, with what `f` reads off each step in order; none if a step stops. -/
def gatherRun {α : Type} (f : State → State → List α) : Nat → State → Option (List α × State)
  | 0, s => some ([], s)
  | k + 1, s =>
    match step s with
    | .next t =>
      match gatherRun f k t with
      | some (xs, u) => some (f s t ++ xs, u)
      | none => none
    | .fault _ => none
    | .refused _ => none

/-- `k` steps, with the actions they issue in order. -/
abbrev actionRun : Nat → State → Option (List Action × State) := gatherRun fun _ t => (issued t).toList

/-- `k` steps, with their trace (00_scope.md R15). -/
abbrev traceRun : Nat → State → Option (List Event × State) :=
  gatherRun fun s t => (inputEvent s).toList ++ outputEvents s t

/-- The command that the edge at the end of this cycle takes, accepted or rejected (40_transactions.md R105). -/
def commandTaken (s : State) : Option Instr :=
  if s.port.rst = false ∧ s.ph = .idle ∧ s.port.cmdValid = true then some (decodeCmd s.port.cmd) else none

/-- What a run yields for one command: its `RESULT(...)` event and, for a successful READ, the content of `buf` at
that event (70_reset_and_hazards.md R246). -/
structure Report where
  code    : ResCode
  tag     : Tag
  n       : BitVec 3
  status  : Byte
  payload : Option Block
  deriving DecidableEq, Repr

/-- The report that the edge from `s` to `t` makes, if it makes one. -/
def report (s t : State) : Option Report :=
  if reportsResult s t then
    some
      { code := t.resCode
        tag := t.resTag
        n := t.resIdx
        status := t.resStatus
        payload := if t.resCode = .ok ∧ t.op = .read then some t.buf else none }
  else none

/-- `k` steps, with the commands they take in order: the program run so far (00_scope.md R7). -/
abbrev commandRun : Nat → State → Option (List Instr × State) := gatherRun fun s _ => (commandTaken s).toList

/-- `k` steps, with the reports they make in order: the result of the run so far (70_reset_and_hazards.md R246). -/
abbrev reportRun : Nat → State → Option (List Report × State) := gatherRun fun s t => (report s t).toList

/-- The run of program `prog` from `s` is over after `k` steps: its last command has been taken and the block is
back in `IDLE` with `done = 1` (70_reset_and_hazards.md R246). DESIGN CHOICE: the run of an empty program, which has
no last command, is never over (log 21). -/
def programOver (prog : List Instr) (k : Nat) (s : State) : Prop :=
  prog ≠ [] ∧ ∃ u, commandRun k s = some (prog, u) ∧ u.ph = .idle ∧ done u = true

/-- The completions `DONE(s, d)` that a stretch of input values brings, in order (00_scope.md R15). -/
def answers (ins : List PortIn) : List (Byte × Byte) :=
  ins.filterMap fun p => if p.peDone then some (p.peStatus, p.peRxdata) else none

/-- A stretch of input values without reset that ends in a completion: every delay, and every command presented
meanwhile, is admitted (41_phases.md R126; 40_transactions.md R119). -/
def endsInDone (ins : List PortIn) : Prop :=
  (∀ p ∈ ins, p.rst = false) ∧ ∃ p, ins.getLast? = some p ∧ p.peDone = true

/-- A state in which the host presents command word `w` to an idle block (40_transactions.md R105). -/
def presents (w : BitVec 17) (s : State) : Prop :=
  s.ph = .idle ∧ s.port.rst = false ∧ s.port.cmdValid = true ∧ s.port.cmd = w

/-- The actions of a successful `READ ra, n` (40_transactions.md R107). -/
def readActions (ra : Byte) (n : Nat) : List Action :=
  [.start, .tx 0xD0, .tx ra, .start, .tx 0xD1] ++ List.replicate (n - 1) .rxa ++ [.rxn, .stop]

/-- The statuses expected during a `READ` of `n` bytes (40_transactions.md R107). -/
def readStatuses (n : Nat) : List Byte :=
  [stStart, stSlawAck, stTxdataAck, stRstart, stSlarAck] ++ List.replicate (n - 1) stRxdataAck ++ [stRxdataNack]

/-- The actions of a successful `WRITE ra, v` (40_transactions.md R113). -/
def writeActions (ra v : Byte) : List Action := [.start, .tx 0xD0, .tx ra, .tx v, .stop]

/-- The statuses expected during a `WRITE` (40_transactions.md R113). -/
def writeStatuses : List Byte := [stStart, stSlawAck, stTxdataAck, stTxdataAck]

/-- The tag of the phase that takes a READ's answer number `k`, counted from 0 (40_transactions.md R120). -/
def readTag : Nat → Tag
  | 0 => .start
  | 1 => .addrWAck
  | 2 => .addrWReg
  | 3 => .rstart
  | 4 => .addrRAck
  | _ => .dataByte

/-- The tag of the phase that takes a WRITE's answer number `k`, counted from 0 (40_transactions.md R120). -/
def writeTag : Nat → Tag
  | 0 => .start
  | 1 => .addrWAck
  | 2 => .addrWReg
  | _ => .dataByte

/-- The engine owes a completion for this action: for every action but `STOP` (41_phases.md R126). -/
def owesCompletion : Act → Bool
  | .noAct | .stop => false
  | .start | .tx | .rxa | .rxn => true

/-- How many actions are outstanding in the engine at the beginning of the next cycle, if `o` are at the beginning of
this one: a completion takes one away, a request in this cycle adds one. The count is the environment's and survives a
reset of the block (41_phases.md R126; 70_reset_and_hazards.md R221, R233; log 20). -/
def outstandingAfter (o : Nat) (s : State) : Nat := o - s.port.peDone.toNat + (owesCompletion s.act).toNat

/-- The engine keeps duties (a) to (c) in this cycle: a completion comes only for an action requested in an earlier
cycle and not completed since (41_phases.md R126). The block checks none of it. -/
def engineKeepsDuty (o : Nat) (s : State) : Prop := s.port.peDone = true → 0 < o

/-- The host keeps its duty in this cycle: a command it presents is taken up in it, or held until the next
(70_reset_and_hazards.md R230; log 20). The block checks nothing. -/
def hostKeepsDuty (s : State) : Prop :=
  s.port.cmdValid = true →
    cmdReady s = true ∨ ((nextPort s).cmdValid = true ∧ (nextPort s).cmd = s.port.cmd)

/-- `ok` holds of the count of outstanding actions and of the state in each of the next `k` cycles. -/
def alongRun (ok : Nat → State → Prop) : Nat → Nat → State → Prop
  | 0, _, _ => True
  | k + 1, o, s => ok o s ∧ ∀ t, step s = .next t → alongRun ok k (outstandingAfter o s) t

/-- The engine keeps its duties for `k` cycles from a start with nothing outstanding (41_phases.md R126;
70_reset_and_hazards.md R225). -/
def engineKeepsDuties (k : Nat) (s : State) : Prop := alongRun engineKeepsDuty k 0 s

/-- The host keeps its duty for `k` cycles (70_reset_and_hazards.md R230). -/
def hostKeepsDuties (k : Nat) (s : State) : Prop := alongRun (fun _ => hostKeepsDuty) k 0 s

/-- Counting the request of this cycle, one action is outstanding while a phase waits, and none otherwise
(20_memory.md R62 (a); 70_reset_and_hazards.md R233). -/
def outstandingMatches (o : Nat) (s : State) : Prop := o + (owesCompletion s.act).toNat = (waiting s.ph).toNat

/-- The codec's outputs mean a time: the last accepted command was `READ 0x00, 7`, it ended with `OK`, and none has
been accepted since (70_reset_and_hazards.md R236). This is what the registers show of it: after a rejected command
`buf` is as before, but `res_code` no longer shows how the READ ended. -/
def timeMeansTime (s : State) : Prop := s.resCode = .ok ∧ s.op = .read ∧ s.ra = rtcBase ∧ s.cnt = 7

/-- A block as it stands in the chip: all constraints hold and the clock-halt flag is clear (42_bcd_codec.md
R187). -/
def cleanBlock (blk : Block) : Prop := blockValid blk = true ∧ clockHalt blk = false

/-- The domain of `ENCT` (42_bcd_codec.md R186; 0 to 59 for seconds and minutes is log 18). -/
def clockInDomain (wc : WallClock) : Prop :=
  wc.second.toNat ≤ 59 ∧ wc.minute.toNat ≤ 59 ∧ wc.hour.toNat ≤ 23 ∧ wc.weekday.toNat ≤ 6 ∧
    1 ≤ wc.day.toNat ∧ wc.day.toNat ≤ 31 ∧ wc.month.toNat ≤ 11 ∧ 2000 ≤ wc.year.toNat ∧ wc.year.toNat ≤ 2099

end Sys2Proof.Machine
end

