-- ==== Sys2Proof/Certificates/Slice0/Obligations.lean ====
section
/-! DEFINITION. The statements for the provers. Each docstring names the rule of spec/ it formalises, or the sections
it rests on. Where a right-hand side lists `{ s with ... }`, every field it does not name is unchanged: that is the
frame. -/

open Sys2Proof Sys2Proof.Machine

/-- Words written out from the encoding tables decode to their instructions (95_test_vectors.md 3.1, 30_encoding.md 1
and 3). -/
def Obligations.CommandAndPhaseWordsDecode : Prop :=
  decode (.cmd 0b00000000000000111#17) = .ok (.read 0x00 7) ∧
  decode (.cmd 0b00000001000000001#17) = .ok (.read 0x02 1) ∧
  decode (.cmd 0b01111111100000111#17) = .ok (.read 0xFF 7) ∧
  decode (.cmd 0b10000000001000101#17) = .ok (.write 0x00 0x45) ∧
  decode (.cmd 0b10000001000100010#17) = .ok (.write 0x02 0x22) ∧
  decode (.cmd 0b11111111100000000#17) = .ok (.write 0xFF 0x00) ∧
  decode (.phase 0b0110#4) = .ok .pRxdata ∧
  decode (.act 0b010#3 0xD0) = .ok (.actTx 0xD0) ∧
  decode (.decIn 0b01011001#8) = .ok (.dec 0x59)

/-- Decoding the encoding of any instruction gives that instruction back (30_encoding.md 1 to 3). -/
def Obligations.EveryInstructionRoundTrips : Prop :=
  ∀ i : Instr, decode (encode i) = .ok i

/-- Command words, codec operands and the phase and action codes in use decode and encode back; the reserved codes are
rejected by name (30_encoding.md 1, 3 and 6). -/
def Obligations.EveryWordHasOneMeaning : Prop :=
  (∀ w : BitVec 17, ∃ i, decode (.cmd w) = .ok i ∧ encode i = .cmd w) ∧
  (∀ b : Byte, decode (.decIn b) = .ok (.dec b) ∧ encode (.dec b) = .decIn b) ∧
  (∀ v : Byte, decode (.encIn v) = .ok (.enc v) ∧ encode (.enc v) = .encIn v) ∧
  (∀ w : BitVec 56, ∃ i, decode (.dectIn w) = .ok i ∧ encode i = .dectIn w) ∧
  (∀ w : BitVec 56, ∃ i, decode (.valIn w) = .ok i ∧ encode i = .valIn w) ∧
  (∀ w : BitVec 60, ∃ i, decode (.wcIn w) = .ok i ∧ encode i = .wcIn w) ∧
  (∀ c : BitVec 4, c.toNat ≤ 8 → ∃ i, decode (.phase c) = .ok i ∧ encode i = .phase c) ∧
  (∀ c : BitVec 4, 9 ≤ c.toNat → decode (.phase c) = .error (.reservedPhase c)) ∧
  (∀ (c : BitVec 3) (d : Byte), c.toNat ≤ 5 → ∃ i, decode (.act c d) = .ok i ∧
    encode i = .act c (if c = 2 then d else 0)) ∧
  (∀ (c : BitVec 3) (d : Byte), 6 ≤ c.toNat → decode (.act c d) = .error (.reservedAction c))

/-- The operands latched at acceptance are the fields of the command word as they stand (R76, R77). -/
def Obligations.OperandsComeFromTheCommandWord : Prop :=
  ∀ (s : State) (w : BitVec 17), presents w s → ∃ t, step s = .next t ∧
    (w.toNat < 2 ^ 16 → 1 ≤ w.toNat % 2 ^ 8 → w.toNat % 2 ^ 8 ≤ 7 →
      t.op = .read ∧ t.ra.toNat = w.toNat / 2 ^ 8 ∧ t.cnt.toNat = w.toNat % 2 ^ 8 ∧
        t.cnt = w.extractLsb' 0 3) ∧
    (w.toNat < 2 ^ 16 → w.toNat % 2 ^ 8 = 0 ∨ 8 ≤ w.toNat % 2 ^ 8 →
      t.resCode = .rejected ∧ t.op = s.op ∧ t.ra = s.ra ∧ t.cnt = s.cnt ∧ t.wd = s.wd) ∧
    (2 ^ 16 ≤ w.toNat →
      t.op = .write ∧ t.ra.toNat = w.toNat / 2 ^ 8 % 2 ^ 8 ∧ t.wd.toNat = w.toNat % 2 ^ 8)

/-- The address bytes are the device address with the direction bit appended: 0xD0 and 0xD1 (30_encoding.md 4, the
address byte). The spec marks position and polarity of the direction bit as general knowledge, G1; log 8. -/
def Obligations.AddressBytesAndDirection : Prop :=
  (∀ dir : BitVec 1, (addressByte dir).extractLsb' 1 7 = 0b1101000#7 ∧ (addressByte dir).extractLsb' 0 1 = dir) ∧
    dirW = 0 ∧ dirR = 1 ∧ slaW = addressByte dirW ∧ slaR = addressByte dirR ∧ slaW = 0xD0 ∧ slaR = 0xD1

/-- After reset every register the table gives a value holds it (R39). -/
def Obligations.ResetRegistersHoldTheTableValues : Prop :=
  State.reset.ph = .idle ∧ State.reset.idx = 0 ∧ State.reset.op = .read ∧ State.reset.ra = 0 ∧ State.reset.cnt = 0 ∧
    State.reset.wd = 0 ∧ State.reset.txd = 0 ∧ State.reset.act = .noAct ∧ State.reset.settle = 0 ∧
    State.reset.resCode = .noResult ∧ State.reset.resTag = .noTag ∧ State.reset.resIdx = 0 ∧
    State.reset.resStatus = 0 ∧ peReq State.reset = false ∧ busy State.reset = false ∧
    cmdReady State.reset = true ∧ done State.reset = false

/-- A clock edge with rst = 1 resets every register but buf, whatever the state and the other inputs (R220). -/
def Obligations.ResetEdgeClearsAllButTheBuffer : Prop :=
  ∀ s : State, s.port.rst = true → ∃ t, step s = .next t ∧
    t.ph = .idle ∧ t.idx = 0 ∧ t.op = .read ∧ t.ra = 0 ∧ t.cnt = 0 ∧ t.wd = 0 ∧ t.txd = 0 ∧ t.act = .noAct ∧
    t.settle = 0 ∧ t.resCode = .noResult ∧ t.resTag = .noTag ∧ t.resIdx = 0 ∧ t.resStatus = 0 ∧ t.buf = s.buf ∧
    issued t = none ∧ cmdReady t = true ∧ busy t = false ∧ done t = false

/-- A READ with count 1 to 7 presented in IDLE is accepted (40_transactions.md 2, acceptance step of READ). -/
def Obligations.LegalReadIsAccepted : Prop :=
  ∀ (s : State) (ra n : Byte), s.ph = .idle → 1 ≤ n.toNat → n.toNat ≤ 7 →
    exec (.read ra n) s = .next { s with
      op := .read, ra := ra, cnt := BitVec.ofNat 3 n.toNat, wd := 0, idx := 0
      resCode := .noResult, resTag := .noTag, resIdx := 0, resStatus := 0, act := .start, ph := .pStart }

/-- A READ with count 0 or above 7 presented in IDLE is rejected and latches nothing (R118). -/
def Obligations.ReservedReadIsRejected : Prop :=
  ∀ (s : State) (ra n : Byte), s.ph = .idle → n.toNat = 0 ∨ 8 ≤ n.toNat →
    ∃ t, exec (.read ra n) s = .next t ∧
      t = { s with resCode := .rejected, resTag := .noTag, resIdx := 0, resStatus := 0, act := .noAct } ∧
      t.ph = .idle ∧ issued t = none ∧ done t = true

/-- A WRITE presented in IDLE is accepted, whatever its operands (40_transactions.md 3, acceptance step of WRITE). -/
def Obligations.WriteIsAccepted : Prop :=
  ∀ (s : State) (ra v : Byte), s.ph = .idle →
    exec (.write ra v) s = .next { s with
      op := .write, ra := ra, cnt := 1, wd := v, idx := 0
      resCode := .noResult, resTag := .noTag, resIdx := 0, resStatus := 0, act := .start, ph := .pStart }

/-- A command presented while the block is busy has no effect of any kind, and one held until IDLE is accepted there
(R119). -/
def Obligations.CommandWhileBusyHasNoEffect : Prop :=
  (∀ (s : State) (ra x : Byte), s.ph ≠ .idle → exec (.read ra x) s = .next s ∧ exec (.write ra x) s = .next s) ∧
  (∀ (s : State) (v : Bool) (w : BitVec 17), s.ph ≠ .idle → ∃ t u, step s = .next t ∧
    step { s with port := { s.port with cmdValid := v, cmd := w } } = .next u ∧
    u = { t with port := { t.port with cmd := u.port.cmd } }) ∧
  (∀ (s : State) (w : BitVec 17), presents w s → ∃ u, exec (decodeCmd w) s = .next u ∧ step s = .next (endCycle u))

/-- IDLE waits: without a command it writes act <- 0 and nothing else; with one it takes it (41_phases.md 4,
40_transactions.md 1). -/
def Obligations.IdleWithoutCommandOnlyClearsAct : Prop :=
  (∀ s : State, s.ph = .idle → s.port.cmdValid = false → exec .idle s = .next { s with act := .noAct }) ∧
  (∀ s : State, s.ph = .idle → s.port.cmdValid = true → exec .idle s = exec (decodeCmd s.port.cmd) s)

/-- P_START: on ST_START transmit SLA_W and enter P_SLAW, on any other status abort with T_START (R132). -/
def Obligations.PhaseStart : Prop :=
  ∀ s : State, s.ph = .pStart → exec .pStart s = .next (
    if s.port.peDone = true then
      if s.port.peStatus = stStart then { s with act := .tx, txd := slaW, ph := .pSlaw }
      else { s with
        act := .noAct, ph := .idle, resCode := .fail, resTag := .start, resIdx := 0, resStatus := s.port.peStatus }
    else { s with act := .noAct })

/-- P_SLAW: on ST_SLAW_ACK transmit ra and enter P_REG, on any other status abort with T_ADDR_W_ACK (R134). -/
def Obligations.PhaseAddressWrite : Prop :=
  ∀ s : State, s.ph = .pSlaw → exec .pSlaw s = .next (
    if s.port.peDone = true then
      if s.port.peStatus = stSlawAck then { s with act := .tx, txd := s.ra, ph := .pReg }
      else { s with
        act := .noAct, ph := .idle, resCode := .fail, resTag := .addrWAck, resIdx := 0, resStatus := s.port.peStatus }
    else { s with act := .noAct })

/-- P_REG: on ST_TXDATA_ACK a READ issues START, a WRITE transmits wd; on any other status abort with T_ADDR_W_REG
(R136). -/
def Obligations.PhaseRegister : Prop :=
  ∀ s : State, s.ph = .pReg → exec .pReg s = .next (
    if s.port.peDone = true then
      if s.port.peStatus = stTxdataAck then
        if s.op = .read then { s with act := .start, ph := .pRstart }
        else { s with act := .tx, txd := s.wd, ph := .pWdata }
      else { s with
        act := .noAct, ph := .idle, resCode := .fail, resTag := .addrWReg, resIdx := 0, resStatus := s.port.peStatus }
    else { s with act := .noAct })

/-- P_RSTART: on ST_RSTART transmit SLA_R and enter P_SLAR, on any other status abort with T_RSTART (R138). -/
def Obligations.PhaseRepeatedStart : Prop :=
  ∀ s : State, s.ph = .pRstart → exec .pRstart s = .next (
    if s.port.peDone = true then
      if s.port.peStatus = stRstart then { s with act := .tx, txd := slaR, ph := .pSlar }
      else { s with
        act := .noAct, ph := .idle, resCode := .fail, resTag := .rstart, resIdx := 0, resStatus := s.port.peStatus }
    else { s with act := .noAct })

/-- P_SLAR: on ST_SLAR_ACK ask for the first byte and enter P_RXDATA, on any other status abort with T_ADDR_R_ACK
(R139). -/
def Obligations.PhaseAddressRead : Prop :=
  ∀ s : State, s.ph = .pSlar → exec .pSlar s = .next (
    if s.port.peDone = true then
      if s.port.peStatus = stSlarAck then { s with act := if s.cnt = 1 then .rxn else .rxa, ph := .pRxdata }
      else { s with
        act := .noAct, ph := .idle, resCode := .fail, resTag := .addrRAck, resIdx := 0, resStatus := s.port.peStatus }
    else { s with act := .noAct })

/-- P_RXDATA: compare first, capture on a match; the last byte ends the READ with STOP and OK (R140). -/
def Obligations.PhaseReceiveData : Prop :=
  ∀ s : State, s.ph = .pRxdata → exec .pRxdata s = .next (
    if s.port.peDone = true then
      if s.idx.toNat + 1 = s.cnt.toNat ∧ s.port.peStatus = stRxdataNack then { s with
        buf := writeByte s.buf s.idx s.port.peRxdata, act := .stop, resCode := .ok, ph := .idle }
      else if s.idx.toNat + 1 ≠ s.cnt.toNat ∧ s.port.peStatus = stRxdataAck then { s with
        buf := writeByte s.buf s.idx s.port.peRxdata, idx := s.idx + 1
        act := if s.idx.toNat + 2 = s.cnt.toNat then .rxn else .rxa }
      else { s with
        act := .noAct, ph := .idle, resCode := .fail, resTag := .dataByte, resIdx := s.idx
        resStatus := s.port.peStatus }
    else { s with act := .noAct }) ∧
    (∀ (blk : Block) (i : BitVec 3) (d : Byte) (j : Fin 7),
      readByte (writeByte blk i d) j = if i.toNat = j.val then d else readByte blk j)

/-- P_WDATA: on ST_TXDATA_ACK issue STOP and settle, on any other status abort with T_DATA_BYTE and no STOP (R142). -/
def Obligations.PhaseWriteData : Prop :=
  ∀ s : State, s.ph = .pWdata → exec .pWdata s = .next (
    if s.port.peDone = true then
      if s.port.peStatus = stTxdataAck then { s with act := .stop, settle := Config.tSettle, ph := .pSettle }
      else { s with
        act := .noAct, ph := .idle, resCode := .fail, resTag := .dataByte, resIdx := 0, resStatus := s.port.peStatus }
    else { s with act := .noAct })

/-- One cycle of P_SETTLE counts down, or ends the WRITE with OK (41_phases.md 2, one cycle of the phase P_SETTLE). -/
def Obligations.SettleCycleCountsOrEnds : Prop :=
  ∀ s : State, s.ph = .pSettle → exec .pSettle s = .next (
    if s.settle = 0 then { s with act := .noAct, resCode := .ok, ph := .idle }
    else { s with act := .noAct, settle := s.settle - 1 })

/-- The row of a phase does nothing while ph names another phase (41_phases.md 1 and 3). That an instruction which is
not selected has no effect is the model's choice, log 11. -/
def Obligations.PhaseRowRunsOnlyInItsPhase : Prop :=
  ∀ (p : Phase) (s : State), s.ph ≠ p → exec (phaseInstr p) s = .next s

/-- Issuing an action writes act, and txd for TX, and shows on the engine port (30_encoding.md 3, the action codes,
41_phases.md 1, emit). -/
def Obligations.ActionsAreIssuedOnTheEnginePort : Prop :=
  ∀ (s : State) (d : Byte),
    (∃ t, exec .actNone s = .next t ∧ t = { s with act := .noAct } ∧ peReq t = false ∧ peAction t = 0) ∧
    (∃ t, exec .actStart s = .next t ∧ t = { s with act := .start } ∧ peReq t = true ∧ peAction t = 1) ∧
    (∃ t, exec (.actTx d) s = .next t ∧ t = { s with act := .tx, txd := d } ∧ peReq t = true ∧ peAction t = 2 ∧
      peTxdata t = d) ∧
    (∃ t, exec .actRxa s = .next t ∧ t = { s with act := .rxa } ∧ peReq t = true ∧ peAction t = 3) ∧
    (∃ t, exec .actRxn s = .next t ∧ t = { s with act := .rxn } ∧ peReq t = true ∧ peAction t = 4) ∧
    (∃ t, exec .actStop s = .next t ∧ t = { s with act := .stop } ∧ peReq t = true ∧ peAction t = 5)

/-- On a mismatch in any waiting phase the abort is the whole effect of the step (R193). -/
def Obligations.MismatchAborts : Prop :=
  ∀ s : State, mismatch s → ∃ t, exec (phaseInstr s.ph) s = .next t ∧
    t = { s with
      resCode := .fail, resTag := tagOfPhase s.ph, resIdx := if s.ph = .pRxdata then s.idx else 0
      resStatus := s.port.peStatus, ph := .idle, act := .noAct } ∧
    issued t = none ∧ done t = true ∧ busy t = false

/-- A failure is reported exactly when a completion brings an unexpected status, and by nothing else (R192). -/
def Obligations.FailureExactlyOnMismatch : Prop :=
  ∀ s t : State, LegalState s → step s = .next t → s.port.rst = false →
    (s.ph = .idle → t.resCode = .fail → s.resCode = .fail) ∧
    (s.ph ≠ .idle → (t.resCode = .fail ↔ mismatch s)) ∧
    (mismatch s → t.ph = .idle ∧ t.resTag = tagOfPhase s.ph ∧ t.resTag ≠ .noTag ∧ t.resTag ≠ .stop ∧
      t.resIdx = (if s.ph = .pRxdata then s.idx else 0) ∧ t.resStatus = s.port.peStatus)

/-- A recorded failure stays while no command comes; a legal command clears it and issues START, a reserved READ
overwrites it with REJECTED (R200). -/
def Obligations.NextLegalCommandLeavesTheFailedState : Prop :=
  (∀ (s : State) (w : BitVec 17), presents w s → (decodeCmd w).wellFormed = true → ∃ t, step s = .next t ∧
    t.resCode = .noResult ∧ t.resTag = .noTag ∧ t.resIdx = 0 ∧ t.resStatus = 0 ∧ issued t = some .start ∧
    t.ph = .pStart) ∧
  (∀ (s : State) (w : BitVec 17), presents w s → (decodeCmd w).wellFormed = false → ∃ t, step s = .next t ∧
    t.resCode = .rejected ∧ t.resTag = .noTag ∧ t.resIdx = 0 ∧ t.resStatus = 0 ∧ issued t = none ∧ t.ph = .idle) ∧
  (∀ s : State, s.ph = .idle → s.port.rst = false → s.port.cmdValid = false → ∃ t, step s = .next t ∧
    t.ph = .idle ∧ t.resCode = s.resCode ∧ t.resTag = s.resTag ∧ t.resIdx = s.resIdx ∧
    t.resStatus = s.resStatus ∧ issued t = none)

/-- The phase changes only by the edges of the next-phase table, with the actions the table names (41_phases.md 3, the
next-phase function). The spec marks its table R150 as derived from its phase, acceptance and reset rules. -/
def Obligations.NextPhaseFollowsTheTable : Prop :=
  ∀ s : State, ∃ t, step s = .next t ∧
    (s.port.rst = true → t.ph = .idle ∧ t.resCode = .noResult ∧ issued t = none) ∧
    (s.port.rst = false →
      (s.ph = .idle → s.port.cmdValid = false → t.ph = .idle ∧ issued t = none) ∧
      (∀ ra n : Byte, s.ph = .idle → s.port.cmdValid = true → s.port.cmd = 0#1 ++ ra ++ n → 1 ≤ n.toNat → n.toNat ≤ 7 →
        t.ph = .pStart ∧ issued t = some .start) ∧
      (∀ ra v : Byte, s.ph = .idle → s.port.cmdValid = true → s.port.cmd = 1#1 ++ ra ++ v →
        t.ph = .pStart ∧ issued t = some .start) ∧
      (∀ ra n : Byte, s.ph = .idle → s.port.cmdValid = true → s.port.cmd = 0#1 ++ ra ++ n → n.toNat = 0 ∨ 8 ≤ n.toNat →
        t.ph = .idle ∧ t.resCode = .rejected ∧ issued t = none) ∧
      (waiting s.ph = true → s.port.peDone = false → t.ph = s.ph ∧ issued t = none) ∧
      (s.ph = .pStart → s.port.peDone = true → s.port.peStatus = stStart →
        t.ph = .pSlaw ∧ issued t = some (.tx slaW)) ∧
      (s.ph = .pSlaw → s.port.peDone = true → s.port.peStatus = stSlawAck →
        t.ph = .pReg ∧ issued t = some (.tx s.ra)) ∧
      (s.ph = .pReg → s.port.peDone = true → s.port.peStatus = stTxdataAck → s.op = .read →
        t.ph = .pRstart ∧ issued t = some .start) ∧
      (s.ph = .pReg → s.port.peDone = true → s.port.peStatus = stTxdataAck → s.op = .write →
        t.ph = .pWdata ∧ issued t = some (.tx s.wd)) ∧
      (s.ph = .pRstart → s.port.peDone = true → s.port.peStatus = stRstart →
        t.ph = .pSlar ∧ issued t = some (.tx slaR)) ∧
      (s.ph = .pSlar → s.port.peDone = true → s.port.peStatus = stSlarAck →
        t.ph = .pRxdata ∧ issued t = some (if s.cnt = 1 then .rxn else .rxa)) ∧
      (s.ph = .pRxdata → s.port.peDone = true → s.port.peStatus = stRxdataAck → s.idx.toNat + 1 ≠ s.cnt.toNat →
        t.ph = .pRxdata ∧ issued t = some (if s.idx.toNat + 2 = s.cnt.toNat then .rxn else .rxa)) ∧
      (s.ph = .pRxdata → s.port.peDone = true → s.port.peStatus = stRxdataNack → s.idx.toNat + 1 = s.cnt.toNat →
        t.ph = .idle ∧ t.resCode = .ok ∧ issued t = some .stop) ∧
      (s.ph = .pWdata → s.port.peDone = true → s.port.peStatus = stTxdataAck →
        t.ph = .pSettle ∧ issued t = some .stop) ∧
      (s.ph = .pSettle → s.settle = 0 → t.ph = .idle ∧ t.resCode = .ok ∧ issued t = none) ∧
      (s.ph = .pSettle → s.settle ≠ 0 → t.ph = .pSettle ∧ issued t = none) ∧
      (mismatch s → t.ph = .idle ∧ t.resCode = .fail ∧ issued t = none))

/-- At each clock edge exactly one thing happens, in the order reset, command, completion, settle, nothing (R152). -/
def Obligations.OneThingHappensAtEachEdge : Prop :=
  (∀ s : State,
    (s.port.rst = true → step s = .next (endCycle (resetEdge s))) ∧
    (s.port.rst = false → s.ph = .idle → s.port.cmdValid = true →
      ∃ u, exec (decodeCmd s.port.cmd) s = .next u ∧ step s = .next (endCycle u)) ∧
    (s.port.rst = false → waiting s.ph = true → s.port.peDone = true →
      ∃ u, exec (phaseInstr s.ph) s = .next u ∧ step s = .next (endCycle u)) ∧
    (s.port.rst = false → s.ph = .pSettle → ∃ u, exec .pSettle s = .next u ∧ step s = .next (endCycle u)) ∧
    (s.port.rst = false → s.ph = .idle → s.port.cmdValid = false → step s = .next (endCycle { s with act := .noAct })) ∧
    (s.port.rst = false → waiting s.ph = true → s.port.peDone = false →
      step s = .next (endCycle { s with act := .noAct }))) ∧
  (∀ (s : State) (p : PortIn), busy { s with port := p } = busy s ∧ cmdReady { s with port := p } = cmdReady s ∧
    done { s with port := p } = done s ∧ peReq { s with port := p } = peReq s ∧
    peAction { s with port := p } = peAction s ∧ peTxdata { s with port := p } = peTxdata s ∧
    rdData { s with port := p } = rdData s)

/-- A pe_done pulse in IDLE or P_SETTLE changes no register and emits nothing (R148). -/
def Obligations.StrayCompletionIsIgnored : Prop :=
  ∀ (s : State) (dn : Bool) (st d : Byte), s.ph = .idle ∨ s.ph = .pSettle → ∃ t u, step s = .next t ∧
    step { s with port := { s.port with peDone := dn, peStatus := st, peRxdata := d } } = .next u ∧
    u = { t with port := { t.port with peStatus := u.port.peStatus, peRxdata := u.port.peRxdata } } ∧
    (s.port.cmdValid = false → issued u = none)

/-- pe_status is read only in the cycle of pe_done, and pe_rxdata only then and only in P_RXDATA (10_state.md 4, the
engine-side ports, 20_memory.md 4). -/
def Obligations.StatusIsSampledOnlyAtCompletion : Prop :=
  (∀ (s : State) (st d : Byte), s.port.peDone = false → ∃ t u, step s = .next t ∧
    step { s with port := { s.port with peStatus := st, peRxdata := d } } = .next u ∧
    u = { t with port := { t.port with peStatus := u.port.peStatus, peRxdata := u.port.peRxdata } }) ∧
  (∀ (s : State) (d : Byte), s.ph ≠ .pRxdata → ∃ t u, step s = .next t ∧
    step { s with port := { s.port with peRxdata := d } } = .next u ∧
    u = { t with port := { t.port with peRxdata := u.port.peRxdata } })

/-- STOP is issued exactly by the step that captures the last byte of a READ and the matching step of P_WDATA
(41_phases.md 2, the stop). -/
def Obligations.StopIsIssuedByTwoStepsOnly : Prop :=
  ∀ s t : State, step s = .next t →
    (issued t = some .stop ↔ s.port.rst = false ∧ s.port.peDone = true ∧
      ((s.ph = .pRxdata ∧ s.idx.toNat + 1 = s.cnt.toNat ∧ s.port.peStatus = stRxdataNack) ∨
        (s.ph = .pWdata ∧ s.port.peStatus = stTxdataAck)))

/-- An action is issued only at a legal command or after the expected completion of the one before; only a reset
leaves one outstanding (20_memory.md 4, program order inside a transaction, 41_phases.md 1, the engine's duties,
70_reset_and_hazards.md 3, stale completions). How outstanding actions are counted is the model's reading, log 20. -/
def Obligations.ActionsFollowExpectedCompletions : Prop :=
  (∀ s t : State, step s = .next t → issued t ≠ none → s.port.rst = false ∧
    ((s.ph = .idle ∧ s.port.cmdValid = true ∧ (decodeCmd s.port.cmd).wellFormed = true) ∨
      (waiting s.ph = true ∧ s.port.peDone = true ∧ expectedStatus s = some s.port.peStatus))) ∧
  (∀ (s t : State) (o : Nat), outstandingMatches o s → engineKeepsDuty o s →
    (s.port.rst = true → waiting s.ph = false) → step s = .next t → outstandingMatches (outstandingAfter o s) t) ∧
  (∀ (s t : State) (o : Nat), outstandingMatches o s → waiting s.ph = true → s.port.rst = true →
    s.port.peDone = false → step s = .next t → t.ph = .idle ∧ outstandingAfter o s = 1) ∧
  outstandingMatches 0 State.reset

/-- A byte is transmitted only on leaving P_START, P_SLAW, P_REG and P_RSTART; address bytes are the constants
(30_encoding.md 2 and 4, 41_phases.md 2, 10_state.md 1). The spec marks the place and polarity of the direction bit in
the address bytes as general knowledge, G1; log 8. -/
def Obligations.TransmittedBytesPerPhase : Prop :=
  ∀ s t : State, step s = .next t →
    (∀ d, issued t = some (.tx d) → d = t.txd ∧
      ((s.ph = .pStart ∧ d = devAddr ++ dirW) ∨ (s.ph = .pSlaw ∧ d = s.ra) ∨
        (s.ph = .pReg ∧ s.op = .write ∧ d = s.wd) ∨ (s.ph = .pRstart ∧ d = devAddr ++ dirR))) ∧
    (s.port.rst = false → (∀ d, issued t ≠ some (.tx d)) → t.txd = s.txd)

/-- op, ra, cnt and wd change only when a legal command is accepted, or by reset (10_state.md 1, the operand latches).
-/
def Obligations.OperandLatchesChangeOnlyAtAcceptance : Prop :=
  ∀ s t : State, step s = .next t → s.port.rst = false →
    ¬(s.ph = .idle ∧ s.port.cmdValid = true ∧ (decodeCmd s.port.cmd).wellFormed = true) →
    t.op = s.op ∧ t.ra = s.ra ∧ t.cnt = s.cnt ∧ t.wd = s.wd

/-- A byte of buf changes only in P_RXDATA on a matching status, at index idx, to the received byte (10_state.md 1,
the receive buffer, 41_phases.md 2). -/
def Obligations.BufferChangesOnlyByCapture : Prop :=
  ∀ s t : State, step s = .next t → ∀ j : Fin 7,
    readByte t.buf j =
      if s.port.rst = false ∧ s.ph = .pRxdata ∧ s.port.peDone = true ∧ expectedStatus s = some s.port.peStatus ∧
        s.idx.toNat = j.val
      then s.port.peRxdata else readByte s.buf j

/-- The settle timer is loaded on entering P_SETTLE, counts down while there, and SETTLED is the cycle it is 0 (R28).
-/
def Obligations.SettleTimerLoadsAndCounts : Prop :=
  ∀ s t : State, step s = .next t → s.port.rst = false →
    (s.ph ≠ .pSettle → t.ph = .pSettle → t.settle = Config.tSettle) ∧
    (s.ph = .pSettle → s.settle ≠ 0 → t.settle = s.settle - 1) ∧
    (s.ph = .pSettle → s.settle = 0 → t.settle = 0) ∧
    (s.ph ≠ .pSettle → t.ph ≠ .pSettle → t.settle = s.settle) ∧
    (inputEvent s = some .settled ↔ s.ph = .pSettle ∧ s.settle = 0)

/-- A cycle that takes in no event puts out none and leaves every register but act and the settle timer (41_phases.md
4, 00_scope.md 6, event notation). -/
def Obligations.NothingHappensWithoutAnEvent : Prop :=
  ∀ s t : State, inputEvent s = none → step s = .next t →
    outputEvents s t = [] ∧ t.ph = s.ph ∧ t.idx = s.idx ∧ t.op = s.op ∧ t.ra = s.ra ∧ t.cnt = s.cnt ∧
    t.wd = s.wd ∧ t.txd = s.txd ∧ t.act = .noAct ∧ t.buf = s.buf ∧ t.resCode = s.resCode ∧ t.resTag = s.resTag ∧
    t.resIdx = s.resIdx ∧ t.resStatus = s.resStatus ∧ (s.ph ≠ .pSettle → t.settle = s.settle)

/-- done is 1 after a step exactly when it reported a result, or done was 1 and no command came; a run reports once
per command (10_state.md 3, 00_scope.md 6, event notation, 70_reset_and_hazards.md 3 and 5). That a held command is
held whole is the model's reading, log 20; the next input values come from the script, log 2. -/
def Obligations.DoneRisesExactlyWithAResult : Prop :=
  (∀ s t : State, step s = .next t → s.port.rst = false →
    (done t = true ↔ (∃ c g n x, Event.result c g n x ∈ outputEvents s t) ∨
      (done s = true ∧ s.port.cmdValid = false)) ∧
    (busy t = true ↔ t.ph ≠ .idle) ∧ cmdReady t = !busy t ∧
    (s.ph ≠ .idle → t.ph = .idle → t.resCode = .ok → t.op = .read →
      report s t = some ⟨.ok, t.resTag, t.resIdx, t.resStatus, some t.buf⟩)) ∧
  (∀ (k : Nat) (s u : State) (cs : List Instr) (rs : List Report), (∀ p ∈ s.port :: s.script, p.rst = false) →
    commandRun k s = some (cs, u) → reportRun k s = some (rs, u) →
    (busy s).toNat + cs.length = rs.length + (busy u).toNat ∧ (∀ r ∈ rs, r.code ≠ .noResult) ∧
    (cs ≠ [] → (programOver cs k s ↔ u.ph = .idle))) ∧
  (∀ s t : State, hostKeepsDuty s → s.ph ≠ .idle → s.port.cmdValid = true → step s = .next t →
    t.port.cmdValid = true ∧ t.port.cmd = s.port.cmd ∧
      (t.ph = .idle → t.port.rst = false → presents s.port.cmd t))

/-- A step is exec of the instruction that stands where the next instruction stands, and then the end of the cycle
(41_phases.md 4, 30_encoding.md 7, the opcode map). -/
def Obligations.StepRunsTheDecodedInstruction : Prop :=
  (∀ (s u : State) (i : Instr), s.port.rst = false → decode (fetchWord s) = .ok i → exec i s = .next u →
    step s = .next (endCycle u)) ∧
  (∀ s : State, ∃ i, decode (fetchWord s) = .ok i) ∧
  (∀ s : State, s.ph = .idle → s.port.cmdValid = true → fetchWord s = .cmd s.port.cmd) ∧
  (∀ s : State, s.ph ≠ .idle ∨ s.port.cmdValid = false → fetchWord s = .phase (phaseCode s.ph))

/-- The end of a cycle brings the next input values and runs all five codec functions on the ports and on buf
(30_encoding.md 7, the opcode map, 10_state.md 4, the codec ports). That the next input values come from the script is
the model's choice, log 2; that outputs are held as values, log 4. -/
def Obligations.CodecFunctionsRunInEveryCycle : Prop :=
  ∀ u : State, ∃ a b c d,
    exec (.dec (nextPort u).decIn) { u with port := nextPort u, script := u.script.tail } = .next a ∧
    exec (.enc (nextPort u).encIn) a = .next b ∧ exec (.dect u.buf) b = .next c ∧ exec (.val u.buf) c = .next d ∧
    exec (.enct (nextPort u).wc) d = .next (endCycle u) ∧
    endCycle u = { u with
      port := nextPort u, script := u.script.tail, codec := (endCycle u).codec, freeCtr := (endCycle u).freeCtr }

/-- After every step the codec's outputs are the stated functions of buf and of the input ports (42_bcd_codec.md 4 and
5, 10_state.md 4, the codec ports, 70_reset_and_hazards.md 3). That outputs are held as values, and what stands in buf
and on the ports at reset, are the model's choices, logs 3, 4 and 5. -/
def Obligations.OutputsFollowBufferAndPorts : Prop :=
  CodecFollows State.reset ∧ ∀ s t : State, step s = .next t → CodecFollows t

/-- The reset state meets the invariant, whatever is in buf and on the ports (10_state.md 6 and 7). The bounds on
settle and idx beyond R40 are the model's, read from R27 and R28. -/
def Obligations.ResetMeetsTheInvariant : Prop :=
  ∀ (p : PortIn) (l : List PortIn) (b : Block), LegalState { State.reset with port := p, script := l, buf := b }

/-- Every step keeps the invariant (10_state.md 7). The bounds on settle and idx beyond R40 are the model's, read from
R27 and R28. -/
def Obligations.StepKeepsTheInvariant : Prop :=
  ∀ s t : State, LegalState s → step s = .next t → LegalState t

/-- In every state reachable from reset, whatever the environment does, the seven clauses hold (10_state.md 7). The
spec marks its invariant R40 as derived from its other rules. -/
def Obligations.ReachableStatesMeetTheSevenClauses : Prop :=
  ∀ (p : PortIn) (l : List PortIn) (b : Block) (k : Nat) (as : List Sys2Proof.Machine.Action) (t : State),
    actionRun k { State.reset with port := p, script := l, buf := b } = some (as, t) →
    (phaseCode t.ph).toNat ≤ 8 ∧
    (t.ph = .idle ∨ (1 ≤ t.cnt.toNat ∧ t.cnt.toNat ≤ 7)) ∧
    (t.ph = .pRxdata → t.op = .read ∧ t.idx.toNat < t.cnt.toNat) ∧
    (t.ph = .pRstart ∨ t.ph = .pSlar ∨ t.ph = .pRxdata → t.op = .read) ∧
    (t.ph = .pWdata ∨ t.ph = .pSettle → t.op = .write) ∧
    (t.resCode ≠ .noResult → t.ph = .idle) ∧
    ((tagCode t.resTag).toNat ≠ 0 → t.resCode = .fail) ∧
    (tagCode t.resTag).toNat ≠ 7

/-- If no completion ever comes, the phase never changes, busy stays 1 and done stays 0 (R122). -/
def Obligations.UnansweredPhaseWaitsForEver : Prop :=
  ∀ s : State, waiting s.ph = true → (∀ p ∈ s.port :: s.script, p.rst = false ∧ p.peDone = false) →
    ∀ k, ∃ t, actionRun k s = some ([], t) ∧ t.ph = s.ph ∧ t.resCode = s.resCode ∧ busy t = true ∧ done t = false

/-- P_SETTLE lasts settle + 1 cycles, issues nothing, and ends in OK (R146). -/
def Obligations.SettleDelayTakesOneCycleMoreThanTheTimer : Prop :=
  ∀ s : State, s.ph = .pSettle → (∀ p ∈ (s.port :: s.script).take (s.settle + 1), p.rst = false) →
    (∀ j, j ≤ s.settle → ∃ t, actionRun j s = some ([], t) ∧ t.ph = .pSettle ∧ t.settle = s.settle - j ∧
      t.resCode = s.resCode) ∧
    (∃ t, actionRun (s.settle + 1) s = some ([], t) ∧ t.ph = .idle ∧ t.resCode = .ok ∧ t.settle = 0)

/-- A READ whose statuses are all as expected issues exactly the stated actions and returns the bytes in order
(40_transactions.md 2 and 5). The spec marks R107 as derived from R106 and the phase rules; the address bytes 0xD0 and
0xD1 in the action list have the direction bit of general knowledge, G1; log 8. -/
def Obligations.ReadWithExpectedStatusesSucceeds : Prop :=
  ∀ (s : State) (ra n : Byte) (ins rest : List PortIn), presents (0#1 ++ ra ++ n) s →
    1 ≤ n.toNat → n.toNat ≤ 7 → s.script = ins ++ rest → endsInDone ins →
    (answers ins).map Prod.fst = readStatuses n.toNat →
    (readActions ra n.toNat).length = n.toNat + 6 ∧ (answers ins).length = n.toNat + 5 ∧
    ∃ t, actionRun (1 + ins.length) s = some (readActions ra n.toNat, t) ∧ t.ph = .idle ∧ t.resCode = .ok ∧
      t.resTag = .noTag ∧ t.resIdx = 0 ∧ t.resStatus = 0 ∧ busy t = false ∧ done t = true ∧
      (∀ i : Fin 7, i.val < n.toNat → (answers ins)[5 + i.val]?.map Prod.snd = some (readByte t.buf i)) ∧
      (∀ i : Fin 7, n.toNat ≤ i.val → readByte t.buf i = readByte s.buf i)

/-- A READ whose answer number k is the first unexpected one fails with that phase's tag and issues no STOP
(40_transactions.md 5, the transaction as the host sees it). The spec marks R120 as derived from the command, phase
and abort rules; the address bytes 0xD0 and 0xD1 in the action list have the direction bit of general knowledge, G1;
log 8. -/
def Obligations.ReadWithUnexpectedStatusFails : Prop :=
  ∀ (s : State) (ra n : Byte) (ins rest : List PortIn) (k : Nat) (x e : Byte), presents (0#1 ++ ra ++ n) s →
    1 ≤ n.toNat → n.toNat ≤ 7 → s.script = ins ++ rest → endsInDone ins →
    (readStatuses n.toNat)[k]? = some e → x ≠ e → (answers ins).map Prod.fst = (readStatuses n.toNat).take k ++ [x] →
    ∃ t, actionRun (1 + ins.length) s = some ((readActions ra n.toNat).take (k + 1), t) ∧ t.ph = .idle ∧
      t.resCode = .fail ∧ t.resTag = readTag k ∧ t.resIdx.toNat = k - 5 ∧ t.resStatus = x ∧ busy t = false ∧
      done t = true ∧
      (∀ i : Fin 7, i.val < k - 5 → (answers ins)[5 + i.val]?.map Prod.snd = some (readByte t.buf i)) ∧
      (∀ i : Fin 7, k - 5 ≤ i.val → readByte t.buf i = readByte s.buf i)

/-- A WRITE whose statuses are all as expected issues exactly five actions, settles, and ends in OK
(40_transactions.md 3 and 5). The spec marks R113 as derived from R112 and the phase rules; the address byte 0xD0 in
the action list has the direction bit of general knowledge, G1; log 8. -/
def Obligations.WriteWithExpectedStatusesSucceeds : Prop :=
  ∀ (s : State) (ra v : Byte) (ins rest : List PortIn), presents (1#1 ++ ra ++ v) s →
    s.script = ins ++ rest → endsInDone ins →
    (∀ p ∈ rest.take (Config.tSettle + 1), p.rst = false) → (answers ins).map Prod.fst = writeStatuses →
    (∃ u, actionRun (1 + ins.length) s = some (writeActions ra v, u) ∧ u.ph = .pSettle ∧ u.resCode = .noResult ∧
      u.settle = Config.tSettle) ∧
    ∃ t, actionRun (1 + ins.length + (Config.tSettle + 1)) s = some (writeActions ra v, t) ∧ t.ph = .idle ∧
      t.resCode = .ok ∧ t.resTag = .noTag ∧ t.resIdx = 0 ∧ t.resStatus = 0 ∧ busy t = false ∧ done t = true ∧
      t.buf = s.buf

/-- A WRITE whose answer number k is the first unexpected one fails with that phase's tag, no STOP and no settle delay
(40_transactions.md 3 and 5). The spec marks R120 as derived from the command, phase and abort rules; the address byte
0xD0 in the action list has the direction bit of general knowledge, G1; log 8. -/
def Obligations.WriteWithUnexpectedStatusFails : Prop :=
  ∀ (s : State) (ra v : Byte) (ins rest : List PortIn) (k : Nat) (x e : Byte), presents (1#1 ++ ra ++ v) s →
    s.script = ins ++ rest → endsInDone ins →
    writeStatuses[k]? = some e → x ≠ e → (answers ins).map Prod.fst = writeStatuses.take k ++ [x] →
    ∃ t, actionRun (1 + ins.length) s = some ((writeActions ra v).take (k + 1), t) ∧ t.ph = .idle ∧
      t.resCode = .fail ∧ t.resTag = writeTag k ∧ t.resIdx = 0 ∧ t.resStatus = x ∧ busy t = false ∧ done t = true ∧
      t.buf = s.buf

/-- After READ 0x00, 7 ends OK with bytes d0 to d6, the t ports show DECT of those bytes (42_bcd_codec.md 6, end to
end, 70_reset_and_hazards.md 3). The spec marks R188 as derived from R106 and R178. -/
def Obligations.FullReadShowsTheDecodedTime : Prop :=
  ∀ (s : State) (ins rest : List PortIn) (d0 d1 d2 d3 d4 d5 d6 : Byte), presents (0#1 ++ 0x00#8 ++ 7#8) s →
    s.script = ins ++ rest → endsInDone ins → (answers ins).map Prod.fst = readStatuses 7 →
    ((answers ins).map Prod.snd).drop 5 = [d0, d1, d2, d3, d4, d5, d6] →
    ∃ as t, actionRun (1 + ins.length) s = some (as, t) ∧ t.resCode = .ok ∧ timeMeansTime t ∧
      t.codec.t = decodeBlock ⟨d0, d1, d2, d3, d4, d5, d6⟩ ∧ t.codec.tFv = fieldValid ⟨d0, d1, d2, d3, d4, d5, d6⟩ ∧
      rdData t = d6 ++ d5 ++ d4 ++ d3 ++ d2 ++ d1 ++ d0

/-- DEC b drives dec_out with tens * 10 + units, at most 165 (R162). -/
def Obligations.DecGivesTensTimesTenPlusUnits : Prop :=
  ∀ (s : State) (b : Byte), b.toNat / 16 * 10 + b.toNat % 16 ≤ 165 ∧
    exec (.dec b) s = .next { s with
      port := { s.port with decIn := b }
      codec := { s.codec with decOut := BitVec.ofNat 8 (b.toNat / 16 * 10 + b.toNat % 16) } }

/-- ENC v drives v / 10 and v % 10 for v <= 99; above, the low nibble is v % 10 and the high nibble is open (R166). -/
def Obligations.EncPacksTwoDigits : Prop :=
  ∀ (s : State) (v : Byte), ∃ (hi : BitVec 4) (t : State), exec (.enc v) s = .next t ∧
    (v.toNat ≤ 99 → hi = BitVec.ofNat 4 (v.toNat / 10)) ∧
    t = { s with
      port := { s.port with encIn := v }
      codec := { s.codec with encOut := hi ++ BitVec.ofNat 4 (v.toNat % 10) }
      freeCtr := t.freeCtr }

/-- ENC after DEC gives back every valid BCD byte, DEC after ENC every value 0 to 99, and there are 100 valid bytes
(42_bcd_codec.md 3, round trip). The spec marks the second half of R168 as derived from R162 and R166. -/
def Obligations.EncUndoesDecOnValidBytes : Prop :=
  (∀ (s : State) (b : Byte), b.toNat / 16 ≤ 9 → b.toNat % 16 ≤ 9 → ∃ t u, exec (.dec b) s = .next t ∧
    exec (.enc t.codec.decOut) t = .next u ∧ u.codec.encOut = b) ∧
  (∀ (s : State) (v : Byte), v.toNat ≤ 99 → ∃ t u, exec (.enc v) s = .next t ∧
    exec (.dec t.codec.encOut) t = .next u ∧ u.codec.decOut = v) ∧
  ((List.range 256).filter fun b => decide (b / 16 ≤ 9 ∧ b % 16 ≤ 9)).length = 100

/-- DEC maps the valid BCD bytes one to one onto 0..99, and is not injective on all bytes (42_bcd_codec.md 2). The
spec marks R164 as derived from R162. -/
def Obligations.DecIsOneToOneOnValidBytesOnly : Prop :=
  (∀ v : Nat, v ≤ 99 → ∃ b : Byte, (b.toNat / 16 ≤ 9 ∧ b.toNat % 16 ≤ 9 ∧ (decByte b).toNat = v) ∧
    ∀ c : Byte, c.toNat / 16 ≤ 9 → c.toNat % 16 ≤ 9 → (decByte c).toNat = v → c = b) ∧
  (∀ b : Byte, b.toNat / 16 ≤ 9 → b.toNat % 16 ≤ 9 → (decByte b).toNat ≤ 99) ∧
  (∀ b : Byte, (decByte b).toNat = b.toNat / 16 * 10 + b.toNat % 16) ∧
  decByte 0x0A = 10 ∧ decByte 0x10 = 10 ∧ decByte 0x1A = 20 ∧ decByte 0xA0 = 100 ∧ decByte 0xFF = 165

/-- DECT drives the seven time fields by the stated formulas, with bit 7 of the seconds byte ignored (R174, R178). -/
def Obligations.DectDecodesTheBlock : Prop :=
  ∀ (s : State) (blk : Block), exec (.dect blk) s = .next { s with codec := { s.codec with t :=
    { second := BitVec.ofNat 8 (blk.b0.toNat % 128 / 16 * 10 + blk.b0.toNat % 16)
      minute := BitVec.ofNat 8 (blk.b1.toNat / 16 * 10 + blk.b1.toNat % 16)
      hour := BitVec.ofNat 8 (blk.b2.toNat / 16 * 10 + blk.b2.toNat % 16)
      weekday := BitVec.ofNat 8 (blk.b3.toNat / 16 * 10 + blk.b3.toNat % 16 + 255)
      day := BitVec.ofNat 8 (blk.b4.toNat / 16 * 10 + blk.b4.toNat % 16)
      month := BitVec.ofNat 8 (blk.b5.toNat / 16 * 10 + blk.b5.toNat % 16 + 255)
      year := BitVec.ofNat 12 (2000 + (blk.b6.toNat / 16 * 10 + blk.b6.toNat % 16)) } } }

/-- VAL drives the seven constraint flags, their conjunction and the clock-halt flag (42_bcd_codec.md 5). The spec
marks the range 0 to 59 of seconds and minutes as general knowledge, G4; log 18. -/
def Obligations.ValReportsTheConstraintFlags : Prop :=
  ∀ (s : State) (blk : Block), ∃ t, exec (.val blk) s = .next t ∧
    t = { s with codec := { s.codec with
      tFv := t.codec.tFv, tValid := t.codec.tValid, tCh := t.codec.tCh } } ∧
    (t.codec.tFv.getLsbD 0 = true ↔ blk.b0.toNat % 16 ≤ 9 ∧ blk.b0.toNat % 128 / 16 ≤ 5) ∧
    (t.codec.tFv.getLsbD 1 = true ↔ blk.b1.toNat % 16 ≤ 9 ∧ blk.b1.toNat / 16 ≤ 5) ∧
    (t.codec.tFv.getLsbD 2 = true ↔ blk.b2.toNat % 16 ≤ 9 ∧ blk.b2.toNat / 16 ≤ 2 ∧
      (blk.b2.toNat / 16 * 10 + blk.b2.toNat % 16) ≤ 23) ∧
    (t.codec.tFv.getLsbD 3 = true ↔ blk.b3.toNat / 16 = 0 ∧ 1 ≤ blk.b3.toNat % 16 ∧ blk.b3.toNat % 16 ≤ 7) ∧
    (t.codec.tFv.getLsbD 4 = true ↔ blk.b4.toNat % 16 ≤ 9 ∧ blk.b4.toNat / 16 ≤ 9 ∧
      1 ≤ (blk.b4.toNat / 16 * 10 + blk.b4.toNat % 16) ∧ (blk.b4.toNat / 16 * 10 + blk.b4.toNat % 16) ≤ 31) ∧
    (t.codec.tFv.getLsbD 5 = true ↔ blk.b5.toNat % 16 ≤ 9 ∧ blk.b5.toNat / 16 ≤ 9 ∧
      1 ≤ (blk.b5.toNat / 16 * 10 + blk.b5.toNat % 16) ∧ (blk.b5.toNat / 16 * 10 + blk.b5.toNat % 16) ≤ 12) ∧
    (t.codec.tFv.getLsbD 6 = true ↔ blk.b6.toNat % 16 ≤ 9 ∧ blk.b6.toNat / 16 ≤ 9) ∧
    (t.codec.tValid = true ↔ ∀ i, i < 7 → t.codec.tFv.getLsbD i = true) ∧
    (t.codec.tCh = true ↔ 128 ≤ blk.b0.toNat)

/-- When t_valid is 1 every decoded field is in its range (42_bcd_codec.md 5). The spec marks R183 as derived from
R178 and R182; the range 0 to 59 of seconds and minutes is general knowledge, G4; log 18. -/
def Obligations.ValidBlockDecodesIntoTheRanges : Prop :=
  ∀ blk : Block, (blockValid blk = true ↔ ∀ i, i < 7 → (fieldValid blk).getLsbD i = true) ∧
    (blockValid blk = true → clockInDomain (decodeBlock blk))

/-- ENCT drives blk_out with ENC of each field, plus 1 for weekday and month, less 2000 for the year (42_bcd_codec.md
6). The spec marks the operands of R186 as derived from R166 and R178; the range 0 to 59 of seconds and minutes in the
domain is general knowledge, G4; log 18. -/
def Obligations.EnctPacksTheFields : Prop :=
  ∀ (s : State) (wc : WallClock), (∃ (f : Fin 7 → BitVec 4) (t : State), exec (.enct wc) s = .next t ∧
    t = { s with
      port := { s.port with wc := wc }
      codec := { s.codec with blkOut :=
        { b0 := encByte (f 0) wc.second
          b1 := encByte (f 1) wc.minute
          b2 := encByte (f 2) wc.hour
          b3 := encByte (f 3) (BitVec.ofNat 8 (wc.weekday.toNat + 1))
          b4 := encByte (f 4) wc.day
          b5 := encByte (f 5) (BitVec.ofNat 8 (wc.month.toNat + 1))
          b6 := encByte (f 6) (BitVec.ofNat 8 ((wc.year - 2000).toNat)) } }
      freeCtr := t.freeCtr }) ∧
    (clockInDomain wc → wc.second.toNat ≤ 79 ∧ wc.weekday.toNat + 1 ≤ 99 ∧ wc.day.toNat ≤ 99 ∧
      wc.month.toNat + 1 ≤ 99 ∧ (wc.year - 2000).toNat ≤ 99) ∧
    (∀ hi : BitVec 4, wc.second.toNat ≤ 79 → (encByte hi wc.second).getLsbD 7 = false)

/-- DECT undoes ENCT on the domain, and ENCT undoes DECT on valid blocks up to the clock-halt flag (42_bcd_codec.md 6,
round trips). The spec marks R187 as derived from R168, R178, R182 and R186; the range 0 to 59 of seconds and minutes
in t_valid and in the domain is general knowledge, G4; log 18. -/
def Obligations.BlockFunctionsUndoEachOther : Prop :=
  (∀ (k : Nat) (wc : WallClock), clockInDomain wc →
    decodeBlock (encodeClock k wc) = wc ∧ blockValid (encodeClock k wc) = true ∧
      clockHalt (encodeClock k wc) = false) ∧
  (∀ (k : Nat) (blk : Block), cleanBlock blk → encodeClock k (decodeBlock blk) = blk) ∧
  (∀ (k : Nat) (blk : Block), blockValid blk = true → clockHalt blk = true →
    encodeClock k (decodeBlock blk) = { blk with b0 := blk.b0 - 0x80 })

/-- rd_data carries buf[i] at bits 8i+7 to 8i, seconds lowest and year highest, and blk_out carries the bytes of ENCT
the same way (R57). -/
def Obligations.PackedPortsCarryByteIAtBitsEightI : Prop :=
  (∀ (s : State) (i : Fin 7), (rdData s).extractLsb' (8 * i.val) 8 = readByte s.buf i) ∧
  (∀ s : State, (rdData s).extractLsb' 0 8 = s.buf.b0 ∧ (rdData s).extractLsb' 48 8 = s.buf.b6) ∧
  (∀ (s : State) (wc : WallClock), ∃ (k : Nat) (t : State), exec (.enct wc) s = .next t ∧
    ∀ i : Fin 7, (blkOut t).extractLsb' (8 * i.val) 8 = readByte (encodeClock k wc) i) ∧
  (∀ (s : State) (i : Fin 7), (blkOut s).extractLsb' (8 * i.val) 8 = readByte s.codec.blkOut i)
end

