-- ==== Sys2Proof/Laws/State.lean ====
section
/-! SUPPORT. What each named operation leaves in each field of the state, by definition: later proofs need not
unfold a record update. -/

namespace Sys2Proof.Machine

@[simp] theorem emit_fields (a : Act) (s : State) :
    (emit a s).ph = s.ph ∧
    (emit a s).idx = s.idx ∧
    (emit a s).op = s.op ∧
    (emit a s).ra = s.ra ∧
    (emit a s).cnt = s.cnt ∧
    (emit a s).wd = s.wd ∧
    (emit a s).txd = s.txd ∧
    (emit a s).act = a ∧
    (emit a s).buf = s.buf ∧
    (emit a s).settle = s.settle ∧
    (emit a s).resCode = s.resCode ∧
    (emit a s).resTag = s.resTag ∧
    (emit a s).resIdx = s.resIdx ∧
    (emit a s).resStatus = s.resStatus ∧
    (emit a s).port = s.port ∧
    (emit a s).codec = s.codec ∧
    (emit a s).script = s.script ∧
    (emit a s).freeCtr = s.freeCtr :=
  ⟨rfl, rfl, rfl, rfl, rfl, rfl, rfl, rfl, rfl, rfl, rfl, rfl, rfl, rfl, rfl, rfl, rfl, rfl⟩

@[simp] theorem emitTx_fields (d : Byte) (s : State) :
    (emitTx d s).ph = s.ph ∧
    (emitTx d s).idx = s.idx ∧
    (emitTx d s).op = s.op ∧
    (emitTx d s).ra = s.ra ∧
    (emitTx d s).cnt = s.cnt ∧
    (emitTx d s).wd = s.wd ∧
    (emitTx d s).txd = d ∧
    (emitTx d s).act = .tx ∧
    (emitTx d s).buf = s.buf ∧
    (emitTx d s).settle = s.settle ∧
    (emitTx d s).resCode = s.resCode ∧
    (emitTx d s).resTag = s.resTag ∧
    (emitTx d s).resIdx = s.resIdx ∧
    (emitTx d s).resStatus = s.resStatus ∧
    (emitTx d s).port = s.port ∧
    (emitTx d s).codec = s.codec ∧
    (emitTx d s).script = s.script ∧
    (emitTx d s).freeCtr = s.freeCtr :=
  ⟨rfl, rfl, rfl, rfl, rfl, rfl, rfl, rfl, rfl, rfl, rfl, rfl, rfl, rfl, rfl, rfl, rfl, rfl⟩

@[simp] theorem emitNone_fields (s : State) :
    (emitNone s).ph = s.ph ∧
    (emitNone s).idx = s.idx ∧
    (emitNone s).op = s.op ∧
    (emitNone s).ra = s.ra ∧
    (emitNone s).cnt = s.cnt ∧
    (emitNone s).wd = s.wd ∧
    (emitNone s).txd = s.txd ∧
    (emitNone s).act = .noAct ∧
    (emitNone s).buf = s.buf ∧
    (emitNone s).settle = s.settle ∧
    (emitNone s).resCode = s.resCode ∧
    (emitNone s).resTag = s.resTag ∧
    (emitNone s).resIdx = s.resIdx ∧
    (emitNone s).resStatus = s.resStatus ∧
    (emitNone s).port = s.port ∧
    (emitNone s).codec = s.codec ∧
    (emitNone s).script = s.script ∧
    (emitNone s).freeCtr = s.freeCtr :=
  ⟨rfl, rfl, rfl, rfl, rfl, rfl, rfl, rfl, rfl, rfl, rfl, rfl, rfl, rfl, rfl, rfl, rfl, rfl⟩

@[simp] theorem abort_fields (tag : Tag) (n : BitVec 3) (st : Byte) (s : State) :
    (abort tag n st s).ph = .idle ∧
    (abort tag n st s).idx = s.idx ∧
    (abort tag n st s).op = s.op ∧
    (abort tag n st s).ra = s.ra ∧
    (abort tag n st s).cnt = s.cnt ∧
    (abort tag n st s).wd = s.wd ∧
    (abort tag n st s).txd = s.txd ∧
    (abort tag n st s).act = .noAct ∧
    (abort tag n st s).buf = s.buf ∧
    (abort tag n st s).settle = s.settle ∧
    (abort tag n st s).resCode = .fail ∧
    (abort tag n st s).resTag = tag ∧
    (abort tag n st s).resIdx = n ∧
    (abort tag n st s).resStatus = st ∧
    (abort tag n st s).port = s.port ∧
    (abort tag n st s).codec = s.codec ∧
    (abort tag n st s).script = s.script ∧
    (abort tag n st s).freeCtr = s.freeCtr :=
  ⟨rfl, rfl, rfl, rfl, rfl, rfl, rfl, rfl, rfl, rfl, rfl, rfl, rfl, rfl, rfl, rfl, rfl, rfl⟩

@[simp] theorem clearResult_fields (s : State) :
    (clearResult s).ph = s.ph ∧
    (clearResult s).idx = s.idx ∧
    (clearResult s).op = s.op ∧
    (clearResult s).ra = s.ra ∧
    (clearResult s).cnt = s.cnt ∧
    (clearResult s).wd = s.wd ∧
    (clearResult s).txd = s.txd ∧
    (clearResult s).act = s.act ∧
    (clearResult s).buf = s.buf ∧
    (clearResult s).settle = s.settle ∧
    (clearResult s).resCode = .noResult ∧
    (clearResult s).resTag = .noTag ∧
    (clearResult s).resIdx = 0 ∧
    (clearResult s).resStatus = 0 ∧
    (clearResult s).port = s.port ∧
    (clearResult s).codec = s.codec ∧
    (clearResult s).script = s.script ∧
    (clearResult s).freeCtr = s.freeCtr :=
  ⟨rfl, rfl, rfl, rfl, rfl, rfl, rfl, rfl, rfl, rfl, rfl, rfl, rfl, rfl, rfl, rfl, rfl, rfl⟩

@[simp] theorem accept_fields (o : Op) (ra : Byte) (n : BitVec 3) (v : Byte) (s : State) :
    (accept o ra n v s).ph = .pStart ∧
    (accept o ra n v s).idx = 0 ∧
    (accept o ra n v s).op = o ∧
    (accept o ra n v s).ra = ra ∧
    (accept o ra n v s).cnt = n ∧
    (accept o ra n v s).wd = v ∧
    (accept o ra n v s).txd = s.txd ∧
    (accept o ra n v s).act = .start ∧
    (accept o ra n v s).buf = s.buf ∧
    (accept o ra n v s).settle = s.settle ∧
    (accept o ra n v s).resCode = .noResult ∧
    (accept o ra n v s).resTag = .noTag ∧
    (accept o ra n v s).resIdx = 0 ∧
    (accept o ra n v s).resStatus = 0 ∧
    (accept o ra n v s).port = s.port ∧
    (accept o ra n v s).codec = s.codec ∧
    (accept o ra n v s).script = s.script ∧
    (accept o ra n v s).freeCtr = s.freeCtr :=
  ⟨rfl, rfl, rfl, rfl, rfl, rfl, rfl, rfl, rfl, rfl, rfl, rfl, rfl, rfl, rfl, rfl, rfl, rfl⟩

@[simp] theorem reject_fields (s : State) :
    (reject s).ph = s.ph ∧
    (reject s).idx = s.idx ∧
    (reject s).op = s.op ∧
    (reject s).ra = s.ra ∧
    (reject s).cnt = s.cnt ∧
    (reject s).wd = s.wd ∧
    (reject s).txd = s.txd ∧
    (reject s).act = .noAct ∧
    (reject s).buf = s.buf ∧
    (reject s).settle = s.settle ∧
    (reject s).resCode = .rejected ∧
    (reject s).resTag = .noTag ∧
    (reject s).resIdx = 0 ∧
    (reject s).resStatus = 0 ∧
    (reject s).port = s.port ∧
    (reject s).codec = s.codec ∧
    (reject s).script = s.script ∧
    (reject s).freeCtr = s.freeCtr :=
  ⟨rfl, rfl, rfl, rfl, rfl, rfl, rfl, rfl, rfl, rfl, rfl, rfl, rfl, rfl, rfl, rfl, rfl, rfl⟩

@[simp] theorem capture_fields (s : State) :
    (capture s).ph = s.ph ∧
    (capture s).idx = s.idx ∧
    (capture s).op = s.op ∧
    (capture s).ra = s.ra ∧
    (capture s).cnt = s.cnt ∧
    (capture s).wd = s.wd ∧
    (capture s).txd = s.txd ∧
    (capture s).act = s.act ∧
    (capture s).buf = writeByte s.buf s.idx s.port.peRxdata ∧
    (capture s).settle = s.settle ∧
    (capture s).resCode = s.resCode ∧
    (capture s).resTag = s.resTag ∧
    (capture s).resIdx = s.resIdx ∧
    (capture s).resStatus = s.resStatus ∧
    (capture s).port = s.port ∧
    (capture s).codec = s.codec ∧
    (capture s).script = s.script ∧
    (capture s).freeCtr = s.freeCtr :=
  ⟨rfl, rfl, rfl, rfl, rfl, rfl, rfl, rfl, rfl, rfl, rfl, rfl, rfl, rfl, rfl, rfl, rfl, rfl⟩

@[simp] theorem succeed_fields (s : State) :
    (succeed s).ph = .idle ∧
    (succeed s).idx = s.idx ∧
    (succeed s).op = s.op ∧
    (succeed s).ra = s.ra ∧
    (succeed s).cnt = s.cnt ∧
    (succeed s).wd = s.wd ∧
    (succeed s).txd = s.txd ∧
    (succeed s).act = s.act ∧
    (succeed s).buf = s.buf ∧
    (succeed s).settle = s.settle ∧
    (succeed s).resCode = .ok ∧
    (succeed s).resTag = s.resTag ∧
    (succeed s).resIdx = s.resIdx ∧
    (succeed s).resStatus = s.resStatus ∧
    (succeed s).port = s.port ∧
    (succeed s).codec = s.codec ∧
    (succeed s).script = s.script ∧
    (succeed s).freeCtr = s.freeCtr :=
  ⟨rfl, rfl, rfl, rfl, rfl, rfl, rfl, rfl, rfl, rfl, rfl, rfl, rfl, rfl, rfl, rfl, rfl, rfl⟩

@[simp] theorem resetEdge_fields (s : State) :
    (resetEdge s).ph = .idle ∧
    (resetEdge s).idx = 0 ∧
    (resetEdge s).op = .read ∧
    (resetEdge s).ra = 0 ∧
    (resetEdge s).cnt = 0 ∧
    (resetEdge s).wd = 0 ∧
    (resetEdge s).txd = 0 ∧
    (resetEdge s).act = .noAct ∧
    (resetEdge s).buf = s.buf ∧
    (resetEdge s).settle = 0 ∧
    (resetEdge s).resCode = .noResult ∧
    (resetEdge s).resTag = .noTag ∧
    (resetEdge s).resIdx = 0 ∧
    (resetEdge s).resStatus = 0 ∧
    (resetEdge s).port = s.port ∧
    (resetEdge s).codec = s.codec ∧
    (resetEdge s).script = s.script ∧
    (resetEdge s).freeCtr = s.freeCtr :=
  ⟨rfl, rfl, rfl, rfl, rfl, rfl, rfl, rfl, rfl, rfl, rfl, rfl, rfl, rfl, rfl, rfl, rfl, rfl⟩

@[simp] theorem advance_fields (s : State) :
    (advance s).ph = s.ph ∧
    (advance s).idx = s.idx ∧
    (advance s).op = s.op ∧
    (advance s).ra = s.ra ∧
    (advance s).cnt = s.cnt ∧
    (advance s).wd = s.wd ∧
    (advance s).txd = s.txd ∧
    (advance s).act = s.act ∧
    (advance s).buf = s.buf ∧
    (advance s).settle = s.settle ∧
    (advance s).resCode = s.resCode ∧
    (advance s).resTag = s.resTag ∧
    (advance s).resIdx = s.resIdx ∧
    (advance s).resStatus = s.resStatus ∧
    (advance s).port = nextPort s ∧
    (advance s).codec = s.codec ∧
    (advance s).script = s.script.tail ∧
    (advance s).freeCtr = s.freeCtr :=
  ⟨rfl, rfl, rfl, rfl, rfl, rfl, rfl, rfl, rfl, rfl, rfl, rfl, rfl, rfl, rfl, rfl, rfl, rfl⟩

@[simp] theorem driveDec_fields (b : Byte) (s : State) :
    (driveDec b s).ph = s.ph ∧
    (driveDec b s).idx = s.idx ∧
    (driveDec b s).op = s.op ∧
    (driveDec b s).ra = s.ra ∧
    (driveDec b s).cnt = s.cnt ∧
    (driveDec b s).wd = s.wd ∧
    (driveDec b s).txd = s.txd ∧
    (driveDec b s).act = s.act ∧
    (driveDec b s).buf = s.buf ∧
    (driveDec b s).settle = s.settle ∧
    (driveDec b s).resCode = s.resCode ∧
    (driveDec b s).resTag = s.resTag ∧
    (driveDec b s).resIdx = s.resIdx ∧
    (driveDec b s).resStatus = s.resStatus ∧
    (driveDec b s).port = { s.port with decIn := b } ∧
    (driveDec b s).codec = { s.codec with decOut := decByte b } ∧
    (driveDec b s).script = s.script ∧
    (driveDec b s).freeCtr = s.freeCtr :=
  ⟨rfl, rfl, rfl, rfl, rfl, rfl, rfl, rfl, rfl, rfl, rfl, rfl, rfl, rfl, rfl, rfl, rfl, rfl⟩

@[simp] theorem driveEnc_fields (v : Byte) (s : State) :
    (driveEnc v s).ph = s.ph ∧
    (driveEnc v s).idx = s.idx ∧
    (driveEnc v s).op = s.op ∧
    (driveEnc v s).ra = s.ra ∧
    (driveEnc v s).cnt = s.cnt ∧
    (driveEnc v s).wd = s.wd ∧
    (driveEnc v s).txd = s.txd ∧
    (driveEnc v s).act = s.act ∧
    (driveEnc v s).buf = s.buf ∧
    (driveEnc v s).settle = s.settle ∧
    (driveEnc v s).resCode = s.resCode ∧
    (driveEnc v s).resTag = s.resTag ∧
    (driveEnc v s).resIdx = s.resIdx ∧
    (driveEnc v s).resStatus = s.resStatus ∧
    (driveEnc v s).port = { s.port with encIn := v } ∧
    (driveEnc v s).codec = { s.codec with encOut := encByte (Config.freeNibble s.freeCtr) v } ∧
    (driveEnc v s).script = s.script ∧
    (driveEnc v s).freeCtr = s.freeCtr + 1 :=
  ⟨rfl, rfl, rfl, rfl, rfl, rfl, rfl, rfl, rfl, rfl, rfl, rfl, rfl, rfl, rfl, rfl, rfl, rfl⟩

@[simp] theorem driveDect_fields (blk : Block) (s : State) :
    (driveDect blk s).ph = s.ph ∧
    (driveDect blk s).idx = s.idx ∧
    (driveDect blk s).op = s.op ∧
    (driveDect blk s).ra = s.ra ∧
    (driveDect blk s).cnt = s.cnt ∧
    (driveDect blk s).wd = s.wd ∧
    (driveDect blk s).txd = s.txd ∧
    (driveDect blk s).act = s.act ∧
    (driveDect blk s).buf = s.buf ∧
    (driveDect blk s).settle = s.settle ∧
    (driveDect blk s).resCode = s.resCode ∧
    (driveDect blk s).resTag = s.resTag ∧
    (driveDect blk s).resIdx = s.resIdx ∧
    (driveDect blk s).resStatus = s.resStatus ∧
    (driveDect blk s).port = s.port ∧
    (driveDect blk s).codec = { s.codec with t := decodeBlock blk } ∧
    (driveDect blk s).script = s.script ∧
    (driveDect blk s).freeCtr = s.freeCtr :=
  ⟨rfl, rfl, rfl, rfl, rfl, rfl, rfl, rfl, rfl, rfl, rfl, rfl, rfl, rfl, rfl, rfl, rfl, rfl⟩

@[simp] theorem driveVal_fields (blk : Block) (s : State) :
    (driveVal blk s).ph = s.ph ∧
    (driveVal blk s).idx = s.idx ∧
    (driveVal blk s).op = s.op ∧
    (driveVal blk s).ra = s.ra ∧
    (driveVal blk s).cnt = s.cnt ∧
    (driveVal blk s).wd = s.wd ∧
    (driveVal blk s).txd = s.txd ∧
    (driveVal blk s).act = s.act ∧
    (driveVal blk s).buf = s.buf ∧
    (driveVal blk s).settle = s.settle ∧
    (driveVal blk s).resCode = s.resCode ∧
    (driveVal blk s).resTag = s.resTag ∧
    (driveVal blk s).resIdx = s.resIdx ∧
    (driveVal blk s).resStatus = s.resStatus ∧
    (driveVal blk s).port = s.port ∧
    (driveVal blk s).codec = { s.codec with tFv := fieldValid blk, tValid := blockValid blk, tCh := clockHalt blk } ∧
    (driveVal blk s).script = s.script ∧
    (driveVal blk s).freeCtr = s.freeCtr :=
  ⟨rfl, rfl, rfl, rfl, rfl, rfl, rfl, rfl, rfl, rfl, rfl, rfl, rfl, rfl, rfl, rfl, rfl, rfl⟩

@[simp] theorem driveEnct_fields (wc : WallClock) (s : State) :
    (driveEnct wc s).ph = s.ph ∧
    (driveEnct wc s).idx = s.idx ∧
    (driveEnct wc s).op = s.op ∧
    (driveEnct wc s).ra = s.ra ∧
    (driveEnct wc s).cnt = s.cnt ∧
    (driveEnct wc s).wd = s.wd ∧
    (driveEnct wc s).txd = s.txd ∧
    (driveEnct wc s).act = s.act ∧
    (driveEnct wc s).buf = s.buf ∧
    (driveEnct wc s).settle = s.settle ∧
    (driveEnct wc s).resCode = s.resCode ∧
    (driveEnct wc s).resTag = s.resTag ∧
    (driveEnct wc s).resIdx = s.resIdx ∧
    (driveEnct wc s).resStatus = s.resStatus ∧
    (driveEnct wc s).port = { s.port with wc := wc } ∧
    (driveEnct wc s).codec = { s.codec with blkOut := encodeClock s.freeCtr wc } ∧
    (driveEnct wc s).script = s.script ∧
    (driveEnct wc s).freeCtr = s.freeCtr + 7 :=
  ⟨rfl, rfl, rfl, rfl, rfl, rfl, rfl, rfl, rfl, rfl, rfl, rfl, rfl, rfl, rfl, rfl, rfl, rfl⟩

@[simp] theorem endCycle_fields (s : State) :
    (endCycle s).ph = s.ph ∧
    (endCycle s).idx = s.idx ∧
    (endCycle s).op = s.op ∧
    (endCycle s).ra = s.ra ∧
    (endCycle s).cnt = s.cnt ∧
    (endCycle s).wd = s.wd ∧
    (endCycle s).txd = s.txd ∧
    (endCycle s).act = s.act ∧
    (endCycle s).buf = s.buf ∧
    (endCycle s).settle = s.settle ∧
    (endCycle s).resCode = s.resCode ∧
    (endCycle s).resTag = s.resTag ∧
    (endCycle s).resIdx = s.resIdx ∧
    (endCycle s).resStatus = s.resStatus ∧
    (endCycle s).port = nextPort s ∧
    (endCycle s).codec =
      { decOut := decByte (nextPort s).decIn
        encOut := encByte (Config.freeNibble s.freeCtr) (nextPort s).encIn
        blkOut := encodeClock (s.freeCtr + 1) (nextPort s).wc
        t := decodeBlock s.buf
        tFv := fieldValid s.buf
        tValid := blockValid s.buf
        tCh := clockHalt s.buf } ∧
    (endCycle s).script = s.script.tail ∧
    (endCycle s).freeCtr = s.freeCtr + 8 :=
  by simp [endCycle, driveCodec]

end Sys2Proof.Machine
end

