-- ==== Sys2Proof/Laws/Ops.lean ====
section
/-! SUPPORT. What each shared operation, and one step, can do: said once, so that later proofs split on these cases
and never unfold `step`. -/

namespace Sys2Proof.Machine

/-- What a waiting phase can do (41_phases.md R125). -/
theorem awaitDone_cases (p : Phase) (e : Byte) (tag : Tag) (n : BitVec 3) (work : State → State) (s : State) :
    (s.ph ≠ p ∧ awaitDone p e tag n work s = s) ∨
    (s.ph = p ∧ s.port.peDone = false ∧ awaitDone p e tag n work s = emitNone s) ∨
    (s.ph = p ∧ s.port.peDone = true ∧ s.port.peStatus = e ∧ awaitDone p e tag n work s = work s) ∨
    (s.ph = p ∧ s.port.peDone = true ∧ s.port.peStatus ≠ e ∧
      awaitDone p e tag n work s = abort tag n s.port.peStatus s) := by
  unfold awaitDone
  by_cases hp : s.ph = p <;> by_cases hd : s.port.peDone = true <;> by_cases hs : s.port.peStatus = e <;>
    simp_all

/-- `readByte` after `writeByte` (10_state.md R25). -/
theorem readByte_writeByte (blk : Block) (i : BitVec 3) (d : Byte) (j : Fin 7) :
    readByte (writeByte blk i d) j = if i = BitVec.ofNat 3 j.val then d else readByte blk j := by
  match j with
  | 0 | 1 | 2 | 3 | 4 | 5 | 6 => rfl

/-- The word a phase register stands for is its phase's row (30_encoding.md R80). -/
theorem decode_phaseCode (p : Phase) : decode (.phase (phaseCode p)) = .ok (phaseInstr p) := by
  cases p <;> rfl

/-- The instruction the next edge runs, if it is not a reset (41_phases.md R152). -/
def fetchedInstr (s : State) : Instr :=
  if s.ph = .idle ∧ s.port.cmdValid then decodeCmd s.port.cmd else phaseInstr s.ph

theorem decode_fetchWord (s : State) : decode (fetchWord s) = .ok (fetchedInstr s) := by
  unfold fetchWord fetchedInstr
  split
  · rfl
  · exact decode_phaseCode s.ph

/-- Everything a clock edge can do to the state `s`, one constructor for each row of 41_phases.md R150 and R152. -/
inductive Edge (s : State) : State → Prop where
  | reset (h : s.port.rst = true) : Edge s (resetEdge s)
  | idleQuiet (hr : s.port.rst = false) (hp : s.ph = .idle) (hc : s.port.cmdValid = false) : Edge s (emitNone s)
  | acceptRead (hr : s.port.rst = false) (hp : s.ph = .idle) (hc : s.port.cmdValid = true)
      (ra n : Byte) (hw : decodeCmd s.port.cmd = .read ra n) (hl : legalCount n = true) :
      Edge s (accept .read ra (n.extractLsb' 0 3) 0 s)
  | acceptWrite (hr : s.port.rst = false) (hp : s.ph = .idle) (hc : s.port.cmdValid = true)
      (ra v : Byte) (hw : decodeCmd s.port.cmd = .write ra v) : Edge s (accept .write ra 1 v s)
  | reject (hr : s.port.rst = false) (hp : s.ph = .idle) (hc : s.port.cmdValid = true)
      (ra n : Byte) (hw : decodeCmd s.port.cmd = .read ra n) (hl : legalCount n = false) : Edge s (reject s)
  | wait (hr : s.port.rst = false) (hp : waiting s.ph = true) (hd : s.port.peDone = false) : Edge s (emitNone s)
  | mismatch (hr : s.port.rst = false) (hp : waiting s.ph = true) (hm : mismatch s) :
      Edge s (abort (tagOfPhase s.ph) (if s.ph = .pRxdata then s.idx else 0) s.port.peStatus s)
  | started (hr : s.port.rst = false) (hp : s.ph = .pStart) (hd : s.port.peDone = true)
      (hs : s.port.peStatus = stStart) : Edge s (emitTx slaW { s with ph := .pSlaw })
  | addressed (hr : s.port.rst = false) (hp : s.ph = .pSlaw) (hd : s.port.peDone = true)
      (hs : s.port.peStatus = stSlawAck) : Edge s (emitTx s.ra { s with ph := .pReg })
  | regRead (hr : s.port.rst = false) (hp : s.ph = .pReg) (hd : s.port.peDone = true)
      (hs : s.port.peStatus = stTxdataAck) (ho : s.op = .read) : Edge s (emit .start { s with ph := .pRstart })
  | regWrite (hr : s.port.rst = false) (hp : s.ph = .pReg) (hd : s.port.peDone = true)
      (hs : s.port.peStatus = stTxdataAck) (ho : s.op = .write) : Edge s (emitTx s.wd { s with ph := .pWdata })
  | restarted (hr : s.port.rst = false) (hp : s.ph = .pRstart) (hd : s.port.peDone = true)
      (hs : s.port.peStatus = stRstart) : Edge s (emitTx slaR { s with ph := .pSlar })
  | readAddressed (hr : s.port.rst = false) (hp : s.ph = .pSlar) (hd : s.port.peDone = true)
      (hs : s.port.peStatus = stSlarAck) :
      Edge s (emit (if s.cnt = 1 then .rxn else .rxa) { s with ph := .pRxdata })
  | captured (hr : s.port.rst = false) (hp : s.ph = .pRxdata) (hd : s.port.peDone = true)
      (hl : lastByte s = false) (hs : s.port.peStatus = stRxdataAck) :
      Edge s (emit (if nextIsLast s then .rxn else .rxa) { capture s with idx := s.idx + 1 })
  | readDone (hr : s.port.rst = false) (hp : s.ph = .pRxdata) (hd : s.port.peDone = true)
      (hl : lastByte s = true) (hs : s.port.peStatus = stRxdataNack) : Edge s (emit .stop (succeed (capture s)))
  | written (hr : s.port.rst = false) (hp : s.ph = .pWdata) (hd : s.port.peDone = true)
      (hs : s.port.peStatus = stTxdataAck) :
      Edge s (emit .stop { s with settle := Config.tSettle, ph := .pSettle })
  | settling (hr : s.port.rst = false) (hp : s.ph = .pSettle) (hn : s.settle ≠ 0) :
      Edge s (emitNone { s with settle := s.settle - 1 })
  | settled (hr : s.port.rst = false) (hp : s.ph = .pSettle) (hn : s.settle = 0) : Edge s (emitNone (succeed s))

/-- The one place where `step` is unfolded: it takes the edge of the fetched instruction. -/
theorem step_of_exec {s t : State} (hr : s.port.rst = false) (h : exec (fetchedInstr s) s = .next t) :
    step s = .next (endCycle t) := by
  simp [step, hr, decode_fetchWord, h]

theorem step_of_rst {s : State} (hr : s.port.rst = true) : step s = .next (endCycle (resetEdge s)) := by
  simp [step, hr]

theorem execIdle_edge {s : State} (hr : s.port.rst = false) (hp : s.ph = .idle) :
    ∃ u, Edge s u ∧ step s = .next (endCycle u) := by
  by_cases hc : s.port.cmdValid = true
  · by_cases hb : s.port.cmd.extractLsb' 16 1 = 1#1
    · refine ⟨_, .acceptWrite hr hp hc (s.port.cmd.extractLsb' 8 8) (s.port.cmd.extractLsb' 0 8) ?_, ?_⟩
      · simp only [decodeCmd, hb, if_true]
      · apply step_of_exec hr
        simp only [fetchedInstr, hp, hc, decodeCmd, hb, and_self, if_true, exec, execWrite, acceptWrite]
    · have hw : decodeCmd s.port.cmd =
          .read (s.port.cmd.extractLsb' 8 8) (s.port.cmd.extractLsb' 0 8) := by
        simp only [decodeCmd, hb, if_false]
      have hf : fetchedInstr s = .read (s.port.cmd.extractLsb' 8 8) (s.port.cmd.extractLsb' 0 8) := by
        simp only [fetchedInstr, hp, hc, and_self, if_true, hw]
      cases hl : legalCount (s.port.cmd.extractLsb' 0 8)
      · exact ⟨_, .reject hr hp hc _ _ hw hl, step_of_exec hr (by
          simp only [hf, exec, execRead, hp, if_true, acceptRead, hl, Bool.false_eq_true, if_false])⟩
      · exact ⟨_, .acceptRead hr hp hc _ _ hw hl, step_of_exec hr (by
          simp only [hf, exec, execRead, hp, if_true, acceptRead, hl])⟩
  · have hc : s.port.cmdValid = false := by simpa using hc
    exact ⟨_, .idleQuiet hr hp hc, step_of_exec hr (by simp [fetchedInstr, hp, hc, phaseInstr, exec, execIdle])⟩

/-- A waiting phase: it waits, works or aborts. -/
theorem awaiting_edge {s : State} {p : Phase} {e : Byte} {tag : Tag} {n : BitVec 3} {work : State → State}
    (hr : s.port.rst = false) (hp : s.ph = p) (hw : waiting p = true) (he : expectedStatus s = some e)
    (ht : tag = tagOfPhase p) (hn : n = if p = .pRxdata then s.idx else 0)
    (hx : exec (phaseInstr p) s = .next (awaitDone p e tag n work s))
    (hwork : s.port.peDone = true → s.port.peStatus = e → Edge s (work s)) :
    ∃ u, Edge s u ∧ step s = .next (endCycle u) := by
  have hf : fetchedInstr s = phaseInstr p := by
    have : p ≠ .idle := by rintro rfl; simp [waiting] at hw
    simp [fetchedInstr, this, hp]
  refine ⟨_, ?_, step_of_exec hr (hf ▸ hx)⟩
  obtain ⟨h, -⟩ | ⟨-, hd, h⟩ | ⟨-, hd, hs, h⟩ | ⟨-, hd, hs, h⟩ := awaitDone_cases p e tag n work s
  · exact absurd hp h
  · rw [h]; exact .wait hr (hp ▸ hw) hd
  · rw [h]; exact hwork hd hs
  · rw [h, ht, hn, ← hp]; exact .mismatch hr (hp ▸ hw) ⟨hd, e, he, hs⟩

/-- Every state has its edge, and the step takes it: no step faults or is refused. -/
theorem step_edge (s : State) : ∃ u, Edge s u ∧ step s = .next (endCycle u) := by
  by_cases hr : s.port.rst = true
  · exact ⟨_, .reset hr, step_of_rst hr⟩
  have hr : s.port.rst = false := by simpa using hr
  cases hp : s.ph with
  | idle => exact execIdle_edge hr hp
  | pStart =>
    exact awaiting_edge (p := .pStart) hr hp rfl (by simp [expectedStatus, hp]) rfl rfl rfl
      fun hd hs => .started hr hp hd hs
  | pSlaw =>
    exact awaiting_edge (p := .pSlaw) hr hp rfl (by simp [expectedStatus, hp]) rfl rfl rfl
      fun hd hs => .addressed hr hp hd hs
  | pReg =>
    refine awaiting_edge (p := .pReg) hr hp rfl (by simp [expectedStatus, hp]) rfl rfl rfl fun hd hs => ?_
    cases ho : s.op
    · simpa only [ho] using Edge.regRead hr hp hd hs ho
    · simpa only [ho] using Edge.regWrite hr hp hd hs ho
  | pRstart =>
    exact awaiting_edge (p := .pRstart) hr hp rfl (by simp [expectedStatus, hp]) rfl rfl rfl
      fun hd hs => .restarted hr hp hd hs
  | pSlar =>
    exact awaiting_edge (p := .pSlar) hr hp rfl (by simp [expectedStatus, hp]) rfl rfl rfl
      fun hd hs => .readAddressed hr hp hd hs
  | pRxdata =>
    refine awaiting_edge (p := .pRxdata) hr hp rfl (by simp [expectedStatus, hp, lastByte]) rfl rfl rfl
      fun hd hs => ?_
    cases hl : lastByte s
    · simp only [hl, Bool.false_eq_true, if_false] at hs ⊢
      exact .captured hr hp hd hl hs
    · simp only [hl, if_true] at hs ⊢
      exact .readDone hr hp hd hl hs
  | pWdata =>
    exact awaiting_edge (p := .pWdata) hr hp rfl (by simp [expectedStatus, hp]) rfl rfl rfl
      fun hd hs => .written hr hp hd hs
  | pSettle =>
    have hf : fetchedInstr s = .pSettle := by simp [fetchedInstr, hp, phaseInstr]
    by_cases hn : s.settle = 0
    · exact ⟨_, .settled hr hp hn, step_of_exec hr (by simp [hf, exec, execPSettle, hp, hn])⟩
    · exact ⟨_, .settling hr hp hn, step_of_exec hr (by simp [hf, exec, execPSettle, hp, hn])⟩

/-- What a step can do, as an inversion: the state after it is the end of the cycle of one of the edges. -/
theorem step_cases {s t : State} (h : step s = .next t) : ∃ u, Edge s u ∧ t = endCycle u := by
  obtain ⟨u, he, hs⟩ := step_edge s
  exact ⟨u, he, by simpa [hs, eq_comm] using h⟩

/-- An edge writes registers only: ports, script and free values are as before. -/
theorem Edge.keeps_ports {s u : State} (h : Edge s u) :
    u.port = s.port ∧ u.script = s.script ∧ u.codec = s.codec ∧ u.freeCtr = s.freeCtr := by
  cases h <;> simp

theorem Edge.nextPort_eq {s u : State} (h : Edge s u) : nextPort u = nextPort s := by
  simp only [nextPort, h.keeps_ports]

@[simp] theorem owesCompletion_iff (a : Act) : owesCompletion a = true ↔ a ≠ .noAct ∧ a ≠ .stop := by
  cases a <;> simp [owesCompletion]

/-- A report is made exactly by an edge that reports a result, and it carries the result registers (00_scope.md R15;
70_reset_and_hazards.md R246). -/
theorem report_eq (s t : State) (h : reportsResult s t) :
    report s t = some ⟨t.resCode, t.resTag, t.resIdx, t.resStatus,
      if t.resCode = .ok ∧ t.op = .read then some t.buf else none⟩ := if_pos h

theorem report_eq_none (s t : State) (h : ¬reportsResult s t) : report s t = none := if_neg h

/-- A phase that waits is neither `IDLE` nor `P_SETTLE` (10_state.md R23). -/
theorem waiting_iff (p : Phase) : waiting p = true ↔ p ≠ .idle ∧ p ≠ .pSettle := by
  cases p <;> simp [waiting]

/-- Only a waiting phase can see a mismatch (60_exceptions.md R191). -/
theorem mismatch_waiting {s : State} (h : mismatch s) : waiting s.ph = true := by
  obtain ⟨-, e, he, -⟩ := h
  cases hp : s.ph <;> simp_all [expectedStatus, waiting]

theorem legalCount_iff (n : Byte) : legalCount n = true ↔ 1 ≤ n.toNat ∧ n.toNat ≤ 7 := by simp [legalCount]

/-- One step at the front of a run. -/
theorem gatherRun_succ {α : Type} {f : State → State → List α} {s t u : State} {k : Nat} {xs : List α}
    (h : step s = .next t) (hk : gatherRun f k t = some (xs, u)) : gatherRun f (k + 1) s = some (f s t ++ xs, u) := by
  simp only [gatherRun, h, hk]

/-- A run that ends took a first step that ends. -/
theorem gatherRun_succ_cases {α : Type} {f : State → State → List α} {s u : State} {k : Nat} {xs : List α}
    (h : gatherRun f (k + 1) s = some (xs, u)) :
    ∃ t ys, step s = .next t ∧ gatherRun f k t = some (ys, u) ∧ xs = f s t ++ ys := by
  simp only [gatherRun] at h
  split at h
  · rename_i t ht
    split at h
    · rename_i ys v hv
      obtain ⟨rfl, rfl⟩ := by simpa using h
      exact ⟨t, ys, ht, hv, rfl⟩
    · cases h
  · cases h
  · cases h

/-- Two runs one after the other. -/
theorem gatherRun_add {α : Type} {f : State → State → List α} : ∀ (m : Nat) {s t u : State} {k : Nat} {xs ys : List α},
    gatherRun f m s = some (xs, t) → gatherRun f k t = some (ys, u) → gatherRun f (m + k) s = some (xs ++ ys, u)
  | 0, s, t, u, k, xs, ys, h, hk => by
    obtain ⟨rfl, rfl⟩ : [] = xs ∧ s = t := by simpa [gatherRun] using h
    simpa using hk
  | m + 1, s, t, u, k, xs, ys, h, hk => by
    obtain ⟨v, zs, hv, hz, rfl⟩ := gatherRun_succ_cases h
    rw [Nat.add_right_comm, List.append_assoc]
    exact gatherRun_succ hv (gatherRun_add m hz hk)

theorem actionRun_succ {s t u : State} {k : Nat} {as : List Action} (h : step s = .next t)
    (hk : actionRun k t = some (as, u)) : actionRun (k + 1) s = some ((issued t).toList ++ as, u) :=
  gatherRun_succ h hk

theorem actionRun_succ_cases {s u : State} {k : Nat} {as : List Action} (h : actionRun (k + 1) s = some (as, u)) :
    ∃ t bs, step s = .next t ∧ actionRun k t = some (bs, u) ∧ as = (issued t).toList ++ bs :=
  gatherRun_succ_cases h

theorem actionRun_add {m k : Nat} {s t u : State} {as bs : List Action} (h : actionRun m s = some (as, t))
    (hk : actionRun k t = some (bs, u)) : actionRun (m + k) s = some (as ++ bs, u) :=
  gatherRun_add m h hk

/-- One cycle at the front of what holds along a run. -/
theorem alongRun_succ {ok : Nat → State → Prop} {k o : Nat} {s t : State} (h : step s = .next t) :
    alongRun ok (k + 1) o s ↔ ok o s ∧ alongRun ok k (outstandingAfter o s) t := by
  simp [alongRun, h]

/-- The other direction of `step_cases`: the edge that applies is the one the step takes. -/
theorem Edge.step {s u : State} (h : Edge s u) : Machine.step s = .next (endCycle u) := by
  cases h with
  | reset h => exact step_of_rst h
  | idleQuiet hr hp hc => exact step_of_exec hr (by simp [fetchedInstr, hp, hc, phaseInstr, exec, execIdle])
  | acceptRead hr hp hc ra n hw hl =>
    exact step_of_exec hr (by simp [fetchedInstr, hp, hc, hw, exec, execRead, Machine.acceptRead, hl])
  | acceptWrite hr hp hc ra v hw =>
    exact step_of_exec hr (by simp [fetchedInstr, hp, hc, hw, exec, execWrite, Machine.acceptWrite])
  | reject hr hp hc ra n hw hl =>
    exact step_of_exec hr (by simp [fetchedInstr, hp, hc, hw, exec, execRead, Machine.acceptRead, hl])
  | wait hr hp hd =>
    refine step_of_exec hr ?_
    rw [waiting_iff] at hp
    simp only [fetchedInstr, hp, false_and, if_false]
    cases h : s.ph <;>
      simp_all [phaseInstr, exec, execPStart, execPSlaw, execPReg, execPRstart, execPSlar, execPRxdata, execPWdata,
        awaitDone]
  | mismatch hr hp hm =>
    refine step_of_exec hr ?_
    obtain ⟨hd, e, he, hs⟩ := hm
    rw [waiting_iff] at hp
    simp only [fetchedInstr, hp, false_and, if_false]
    cases h : s.ph <;>
      simp_all [phaseInstr, exec, execPStart, execPSlaw, execPReg, execPRstart, execPSlar, execPRxdata, execPWdata,
        awaitDone, expectedStatus, tagOfPhase, lastByte]
  | started hr hp hd hs => exact step_of_exec hr (by simp [fetchedInstr, hp, phaseInstr, exec, execPStart, awaitDone, hd, hs])
  | addressed hr hp hd hs => exact step_of_exec hr (by simp [fetchedInstr, hp, phaseInstr, exec, execPSlaw, awaitDone, hd, hs])
  | regRead hr hp hd hs ho => exact step_of_exec hr (by simp [fetchedInstr, hp, phaseInstr, exec, execPReg, awaitDone, hd, hs, ho])
  | regWrite hr hp hd hs ho => exact step_of_exec hr (by simp [fetchedInstr, hp, phaseInstr, exec, execPReg, awaitDone, hd, hs, ho])
  | restarted hr hp hd hs => exact step_of_exec hr (by simp [fetchedInstr, hp, phaseInstr, exec, execPRstart, awaitDone, hd, hs])
  | readAddressed hr hp hd hs => exact step_of_exec hr (by simp [fetchedInstr, hp, phaseInstr, exec, execPSlar, awaitDone, hd, hs])
  | captured hr hp hd hl hs => exact step_of_exec hr (by simp [fetchedInstr, hp, phaseInstr, exec, execPRxdata, awaitDone, hd, hs, hl])
  | readDone hr hp hd hl hs => exact step_of_exec hr (by simp [fetchedInstr, hp, phaseInstr, exec, execPRxdata, awaitDone, hd, hs, hl])
  | written hr hp hd hs => exact step_of_exec hr (by simp [fetchedInstr, hp, phaseInstr, exec, execPWdata, awaitDone, hd, hs])
  | settling hr hp hn => exact step_of_exec hr (by simp [fetchedInstr, hp, phaseInstr, exec, execPSettle, hn])
  | settled hr hp hn => exact step_of_exec hr (by simp [fetchedInstr, hp, phaseInstr, exec, execPSettle, hn])

/-- What an edge looks at on the input ports (41_phases.md R152; 60_exceptions.md R199): ports that agree on that give
the same edge. -/
theorem Edge.withPort {s u : State} (h : Edge s u) : ∀ p : PortIn, p.rst = s.port.rst →
    (s.ph = .idle → p.cmdValid = s.port.cmdValid ∧ p.cmd = s.port.cmd) →
    (waiting s.ph = true → p.peDone = s.port.peDone ∧ (s.port.peDone = true → p.peStatus = s.port.peStatus)) →
    (s.ph = .pRxdata → s.port.peDone = true → p.peRxdata = s.port.peRxdata) →
    Edge { s with port := p } { u with port := p } := by
  intro p hr hi hw hx
  cases h with
  | reset h => exact .reset (s := { s with port := p }) (by simp [hr,h])
  | idleQuiet h1 hp hc => exact .idleQuiet (s := { s with port := p }) (by simp [*]) hp (by simp [hi hp, hc])
  | acceptRead h1 hp hc ra n hw hl =>
    exact .acceptRead (s := { s with port := p }) (by simp [*]) hp (by simp [hi hp, hc]) ra n (by simp [hi hp, hw]) hl
  | acceptWrite h1 hp hc ra n hw =>
    exact .acceptWrite (s := { s with port := p }) (by simp [*]) hp (by simp [hi hp, hc]) ra n (by simp [hi hp, hw])
  | reject h1 hp hc ra n hw hl =>
    exact .reject (s := { s with port := p }) (by simp [*]) hp (by simp [hi hp, hc]) ra n (by simp [hi hp, hw]) hl
  | wait h1 hp hd => exact .wait (s := { s with port := p }) (by simp [*]) hp (by simp [hw hp, hd])
  | mismatch h1 hp hm =>
    obtain ⟨hd, e, he, hs⟩ := hm
    have := (hw hp).2 hd
    have e2 := Edge.mismatch (s := { s with port := p }) (by simp [*]) hp ⟨by simp [hw hp, hd], e, he, by simpa [this] using hs⟩
    simp only [this] at e2
    exact e2
  | captured h1 hp hd hl hs =>
    have hw := hw (by simp [hp, waiting])
    have hx := hx hp hd
    have := Edge.captured (s := { s with port := p }) (by simp [*]) hp (by simp [hw, hd]) hl (by simp [hw, hd,hs])
    simp only [capture, hx] at this
    exact this
  | readDone h1 hp hd hl hs =>
    have hw := hw (by simp [hp, waiting])
    have hx := hx hp hd
    have := Edge.readDone (s := { s with port := p }) (by simp [*]) hp (by simp [hw, hd]) hl (by simp [hw, hd,hs])
    simp only [capture, hx] at this
    exact this
  | started h1 hp hd hs =>
    have hw := hw (by simp [hp, waiting])
    exact .started (s := { s with port := p }) (by simp [*]) hp (by simp [hw, hd]) (by simp [hw, hd,hs])
  | addressed h1 hp hd hs =>
    have hw := hw (by simp [hp, waiting])
    exact .addressed (s := { s with port := p }) (by simp [*]) hp (by simp [hw, hd]) (by simp [hw, hd,hs])
  | regRead h1 hp hd hs ho =>
    have hw := hw (by simp [hp, waiting])
    exact .regRead (s := { s with port := p }) (by simp [*]) hp (by simp [hw, hd]) (by simp [hw, hd,hs]) ho
  | regWrite h1 hp hd hs ho =>
    have hw := hw (by simp [hp, waiting])
    exact .regWrite (s := { s with port := p }) (by simp [*]) hp (by simp [hw, hd]) (by simp [hw, hd,hs]) ho
  | restarted h1 hp hd hs =>
    have hw := hw (by simp [hp, waiting])
    exact .restarted (s := { s with port := p }) (by simp [*]) hp (by simp [hw, hd]) (by simp [hw, hd,hs])
  | readAddressed h1 hp hd hs =>
    have hw := hw (by simp [hp, waiting])
    exact .readAddressed (s := { s with port := p }) (by simp [*]) hp (by simp [hw, hd]) (by simp [hw, hd,hs])
  | written h1 hp hd hs =>
    have hw := hw (by simp [hp, waiting])
    exact .written (s := { s with port := p }) (by simp [*]) hp (by simp [hw, hd]) (by simp [hw, hd,hs])
  | settling h1 hp hn => exact .settling (s := { s with port := p }) (by simp [*]) hp hn
  | settled h1 hp hn => exact .settled (s := { s with port := p }) (by simp [*]) hp hn

theorem answers_cons (p : PortIn) (l : List PortIn) :
    answers (p :: l) = if p.peDone then (p.peStatus, p.peRxdata) :: answers l else answers l := by
  cases h : p.peDone <;> simp [answers, h]

theorem endsInDone_tail {p : PortIn} {l : List PortIn} (h : endsInDone (p :: l)) (hl : l ≠ []) : endsInDone l := by
  obtain ⟨h1, q, hq, hd⟩ := h
  refine ⟨fun x hx => h1 x (List.mem_cons_of_mem _ hx), q, ?_, hd⟩
  obtain ⟨a, m, rfl⟩ := List.exists_cons_of_ne_nil hl
  simpa using hq

theorem answers_ne_nil {l : List PortIn} (h : endsInDone l) : answers l ≠ [] := by
  obtain ⟨-, q, hq, hd⟩ := h
  have hm := List.mem_of_getLast? hq
  intro hn
  have : (q.peStatus, q.peRxdata) ∈ answers l := by
    simp only [answers, List.mem_filterMap]
    exact ⟨q, hm, by simp [hd]⟩
  simp [hn] at this

/-- A waiting phase waits through any delay until its completion is on the port, and nothing but `act`, the ports and
their functions changes on the way (41_phases.md R125 (2), R126). -/
theorem run_to_completion (rest : List PortIn) : ∀ (ins : List PortIn) (s : State) (a : Byte × Byte)
    (more : List (Byte × Byte)), waiting s.ph = true → s.port :: s.script = ins ++ rest → endsInDone ins →
    answers ins = a :: more →
    ∃ m s' ins', actionRun m s = some ([], s') ∧ ins.length = m + 1 + ins'.length ∧
      s'.port.rst = false ∧ s'.port.peDone = true ∧ (s'.port.peStatus, s'.port.peRxdata) = a ∧
      s'.script = ins' ++ rest ∧ answers ins' = more ∧ (ins' ≠ [] → endsInDone ins') ∧ (more = [] → ins' = []) ∧
      s' = { s with
        act := s'.act, port := s'.port, script := s'.script, codec := s'.codec, freeCtr := s'.freeCtr } := by
  intro ins
  induction ins with
  | nil => intro s a more _ _ he _; exact absurd rfl (answers_ne_nil he)
  | cons p l ih =>
    intro s a more hw hs he ha
    obtain ⟨hp, hl⟩ := List.cons.inj hs
    have hr : s.port.rst = false := by rw [hp]; exact he.1 p (by simp)
    rw [answers_cons] at ha
    cases hd : p.peDone
    · have hd' : s.port.peDone = false := by rw [hp, hd]
      have hne : l ≠ [] := by
        rintro rfl
        obtain ⟨-, q, hq, hd2⟩ := he
        simp at hq; subst hq; simp [hd] at hd2
      have hstep := Edge.step (.wait hr hw hd')
      obtain ⟨q, l', rfl⟩ := List.exists_cons_of_ne_nil hne
      obtain ⟨m, s', ins', h1, h2, h3, h4, h5, h6, h7, h8, h9, h10⟩ :=
        ih (endCycle (emitNone s)) a more (by simpa using hw) (by simp [nextPort, hl]) (endsInDone_tail he hne)
          (by simpa [hd] using ha)
      refine ⟨m + 1, s', ins', by simpa [issued] using actionRun_succ hstep h1, by simp at h2 ⊢; omega, h3, h4, h5,
        h6, h7, h8, h9, ?_⟩
      rw [h10]; simp
    · simp only [hd, if_true, List.cons.injEq] at ha
      have hp' : s.port.peDone = true := by rw [hp, hd]
      refine ⟨0, s, l, rfl, by simp; omega, hr, hp', by rw [hp]; exact ha.1, hl, ha.2,
        endsInDone_tail he, fun hm => ?_, rfl⟩
      by_contra hne
      exact answers_ne_nil (endsInDone_tail he hne) (ha.2.trans hm)

end Sys2Proof.Machine
end

