-- ==== Sys2Proof/Laws/Codec.lean ====
section
/-! SUPPORT. The codec's arithmetic over numbers: digits, `DEC`, `ENC` and their round trips (42_bcd_codec.md 2, 3),
and the constraint flags one by one (42_bcd_codec.md 5). -/

namespace Sys2Proof.Machine

theorem tens_eq (b : Byte) : tens b = b.toNat / 16 := by
  have := b.isLt
  simp only [tens, BitVec.extractLsb'_toNat, Nat.shiftRight_eq_div_pow]; omega

theorem units_eq (b : Byte) : units b = b.toNat % 16 := by
  simp [units, BitVec.extractLsb'_toNat]

/-- `DEC` never wraps (42_bcd_codec.md R162). -/
theorem decByte_toNat (b : Byte) : (decByte b).toNat = b.toNat / 16 * 10 + b.toNat % 16 := by
  have := b.isLt
  simp only [decByte, tens_eq, units_eq, BitVec.toNat_ofNat]; omega

theorem maskSeconds_toNat (b : Byte) : (maskSeconds b).toNat = b.toNat % 128 := by
  simp only [maskSeconds, BitVec.toNat_and]
  exact Nat.and_two_pow_sub_one_eq_mod b.toNat 7

/-- The two nibbles of `ENC` as a number (42_bcd_codec.md R166). -/
theorem encByte_toNat (hi : BitVec 4) (v : Byte) :
    (encByte hi v).toNat = (if v.toNat ≤ 99 then v.toNat / 10 else hi.toNat) * 16 + v.toNat % 10 := by
  have := v.isLt
  simp only [encByte, BitVec.toNat_append, BitVec.toNat_ofNat]
  rw [← Nat.shiftLeft_add_eq_or_of_lt (by omega), Nat.shiftLeft_eq]
  split
  · simp only [BitVec.toNat_ofNat]; omega
  · omega

/-- `ENC` after `DEC` on a valid byte, whatever the free value (42_bcd_codec.md R168). -/
theorem encByte_decByte (hi : BitVec 4) (b : Byte) (ht : b.toNat / 16 ≤ 9) (hu : b.toNat % 16 ≤ 9) :
    encByte hi (decByte b) = b := by
  apply BitVec.eq_of_toNat_eq
  simp only [encByte_toNat, decByte_toNat]
  split <;> omega

/-- `DEC` after `ENC` inside the domain of `ENC` (42_bcd_codec.md R168). -/
theorem decByte_encByte (hi : BitVec 4) (v : Byte) (hv : v.toNat ≤ 99) : decByte (encByte hi v) = v := by
  apply BitVec.eq_of_toNat_eq
  simp only [decByte_toNat, encByte_toNat, hv, if_true]
  omega

theorem secondsOk_iff (b : Byte) : secondsOk b = true ↔ b.toNat % 16 ≤ 9 ∧ b.toNat % 128 / 16 ≤ 5 := by
  simp only [secondsOk, units_eq, decide_eq_true_eq, BitVec.extractLsb'_toNat, Nat.shiftRight_eq_div_pow]; omega

theorem minutesOk_iff (b : Byte) : minutesOk b = true ↔ b.toNat % 16 ≤ 9 ∧ b.toNat / 16 ≤ 5 := by
  simp only [minutesOk, units_eq, tens_eq, decide_eq_true_eq]

theorem hoursOk_iff (b : Byte) :
    hoursOk b = true ↔ b.toNat % 16 ≤ 9 ∧ b.toNat / 16 ≤ 2 ∧ b.toNat / 16 * 10 + b.toNat % 16 ≤ 23 := by
  simp only [hoursOk, units_eq, tens_eq, decByte_toNat, decide_eq_true_eq]

theorem weekdayOk_iff (b : Byte) :
    weekdayOk b = true ↔ b.toNat / 16 = 0 ∧ 1 ≤ b.toNat % 16 ∧ b.toNat % 16 ≤ 7 := by
  simp only [weekdayOk, units_eq, tens_eq, decide_eq_true_eq]

theorem dayOk_iff (b : Byte) :
    dayOk b = true ↔ b.toNat % 16 ≤ 9 ∧ b.toNat / 16 ≤ 9 ∧ 1 ≤ b.toNat / 16 * 10 + b.toNat % 16 ∧
      b.toNat / 16 * 10 + b.toNat % 16 ≤ 31 := by
  simp only [dayOk, units_eq, tens_eq, decByte_toNat, decide_eq_true_eq]

theorem monthOk_iff (b : Byte) :
    monthOk b = true ↔ b.toNat % 16 ≤ 9 ∧ b.toNat / 16 ≤ 9 ∧ 1 ≤ b.toNat / 16 * 10 + b.toNat % 16 ∧
      b.toNat / 16 * 10 + b.toNat % 16 ≤ 12 := by
  simp only [monthOk, units_eq, tens_eq, decByte_toNat, decide_eq_true_eq]

theorem yearOk_iff (b : Byte) : yearOk b = true ↔ b.toNat % 16 ≤ 9 ∧ b.toNat / 16 ≤ 9 := by
  simp only [yearOk, units_eq, tens_eq, decide_eq_true_eq]

/-- Bit `i` of `t_fv` is the flag of field `i` (42_bcd_codec.md R182). -/
theorem fieldValid_bits (blk : Block) :
    (fieldValid blk).getLsbD 0 = secondsOk blk.b0 ∧ (fieldValid blk).getLsbD 1 = minutesOk blk.b1 ∧
    (fieldValid blk).getLsbD 2 = hoursOk blk.b2 ∧ (fieldValid blk).getLsbD 3 = weekdayOk blk.b3 ∧
    (fieldValid blk).getLsbD 4 = dayOk blk.b4 ∧ (fieldValid blk).getLsbD 5 = monthOk blk.b5 ∧
    (fieldValid blk).getLsbD 6 = yearOk blk.b6 := by
  simp only [fieldValid]
  generalize secondsOk blk.b0 = a, minutesOk blk.b1 = b, hoursOk blk.b2 = c, weekdayOk blk.b3 = d,
    dayOk blk.b4 = e, monthOk blk.b5 = f, yearOk blk.b6 = g
  revert a b c d e f g; decide

theorem sevenFlags_all (a b c d e f g : Bool) :
    BitVec.ofBool g ++ BitVec.ofBool f ++ BitVec.ofBool e ++ BitVec.ofBool d ++ BitVec.ofBool c ++ BitVec.ofBool b ++
      BitVec.ofBool a = 127#7 ↔
    a = true ∧ b = true ∧ c = true ∧ d = true ∧ e = true ∧ f = true ∧ g = true := by
  cases a <;> cases b <;> cases c <;> cases d <;> cases e <;> cases f <;> cases g <;> decide

/-- `t_valid` is the conjunction of the seven flags (42_bcd_codec.md R183). -/
theorem blockValid_iff (blk : Block) :
    blockValid blk = true ↔ secondsOk blk.b0 = true ∧ minutesOk blk.b1 = true ∧ hoursOk blk.b2 = true ∧
      weekdayOk blk.b3 = true ∧ dayOk blk.b4 = true ∧ monthOk blk.b5 = true ∧ yearOk blk.b6 = true :=
  (decide_eq_true_iff (p := fieldValid blk = 0b1111111)).trans (sevenFlags_all _ _ _ _ _ _ _)

theorem clockHalt_iff (blk : Block) : clockHalt blk = true ↔ 128 ≤ blk.b0.toNat := by
  have := blk.b0.isLt
  simp only [clockHalt, BitVec.getLsbD, Nat.testBit, Nat.shiftRight_eq_div_pow]
  simp; omega

end Sys2Proof.Machine
end

