-- ==== Sys2Proof/Laws/Encoding.lean ====
section
/-! SUPPORT. The packings of the multi-field words, both ways (20_memory.md R57; 30_encoding.md R75 to R77). -/

namespace Sys2Proof

/-- Two adjacent slices make one (the library's lemma, in the form the packings need). -/
theorem extractLsb'_adjacent {n : Nat} (x : BitVec n) (i k l : Nat) :
    x.extractLsb' (i + k) l ++ x.extractLsb' i k = x.extractLsb' i (l + k) :=
  BitVec.extractLsb'_append_extractLsb'_eq_extractLsb' rfl

theorem Block.unpack_pack (blk : Block) : Block.unpack blk.pack = blk := by
  cases blk
  simp only [Block.unpack, Block.pack, Block.mk.injEq]
  refine ⟨?_, ?_, ?_, ?_, ?_, ?_, ?_⟩ <;>
    (repeat refine (BitVec.extractLsb'_append_eq_of_le (by decide)).trans ?_) <;>
    first
    | exact BitVec.extractLsb'_eq_self
    | exact (BitVec.extractLsb'_append_eq_of_add_le (by decide)).trans BitVec.extractLsb'_eq_self

theorem Block.pack_unpack (w : BitVec 56) : (Block.unpack w).pack = w := by
  have h := BitVec.extractLsb'_eq_self (x := w)
  simpa only [Block.unpack, Block.pack, extractLsb'_adjacent w 40 8 8, extractLsb'_adjacent w 32 8 16,
    extractLsb'_adjacent w 24 8 24, extractLsb'_adjacent w 16 8 32, extractLsb'_adjacent w 8 8 40,
    extractLsb'_adjacent w 0 8 48] using h

theorem WallClock.unpack_pack (wc : WallClock) : WallClock.unpack wc.pack = wc := by
  cases wc
  simp only [WallClock.unpack, WallClock.pack, WallClock.mk.injEq]
  refine ⟨?_, ?_, ?_, ?_, ?_, ?_, ?_⟩ <;>
    (repeat refine (BitVec.extractLsb'_append_eq_of_le (by decide)).trans ?_) <;>
    first
    | exact BitVec.extractLsb'_eq_self
    | exact (BitVec.extractLsb'_append_eq_of_add_le (by decide)).trans BitVec.extractLsb'_eq_self

theorem WallClock.pack_unpack (w : BitVec 60) : (WallClock.unpack w).pack = w := by
  have h := BitVec.extractLsb'_eq_self (x := w)
  simpa only [WallClock.unpack, WallClock.pack, extractLsb'_adjacent w 40 8 12, extractLsb'_adjacent w 32 8 20,
    extractLsb'_adjacent w 24 8 28, extractLsb'_adjacent w 16 8 36, extractLsb'_adjacent w 8 8 44,
    extractLsb'_adjacent w 0 8 52] using h

/-- The three fields of a command word laid side by side (30_encoding.md R75). -/
theorem cmd_fields (op : BitVec 1) (ra arg : Byte) :
    (op ++ ra ++ arg : BitVec 17).extractLsb' 16 1 = op ∧ (op ++ ra ++ arg : BitVec 17).extractLsb' 8 8 = ra ∧
      (op ++ ra ++ arg : BitVec 17).extractLsb' 0 8 = arg := by
  refine ⟨?_, ?_, ?_⟩ <;>
    (repeat refine (BitVec.extractLsb'_append_eq_of_le (by decide)).trans ?_) <;>
    first
    | exact BitVec.extractLsb'_eq_self
    | exact (BitVec.extractLsb'_append_eq_of_add_le (by decide)).trans BitVec.extractLsb'_eq_self

theorem decodeCmd_read (ra n : Byte) : decodeCmd (0#1 ++ ra ++ n) = .read ra n := by
  simp [decodeCmd, cmd_fields 0#1 ra n]

theorem decodeCmd_write (ra v : Byte) : decodeCmd (1#1 ++ ra ++ v) = .write ra v := by
  simp [decodeCmd, cmd_fields 1#1 ra v]

/-- Every command word is its three fields. -/
theorem cmd_eq_fields (w : BitVec 17) : w.extractLsb' 16 1 ++ w.extractLsb' 8 8 ++ w.extractLsb' 0 8 = w := by
  have h := BitVec.extractLsb'_eq_self (x := w)
  simpa only [BitVec.append_assoc, extractLsb'_adjacent w 0 8 8, extractLsb'_adjacent w 8 8 1,
    extractLsb'_adjacent w 0 8 9, extractLsb'_adjacent w 0 16 1] using h

end Sys2Proof
end

