-- ==== Sys2Proof/Laws/PerInstr.lean ====
section
/-! SUPPORT. Family RoundTrip: each instruction's word decodes to that instruction, with every operand at every value
(30_encoding.md R75 to R80). -/

namespace Sys2Proof.Laws.RoundTrip

/-- Decoding the encoding of `i` gives `i` back. -/
def Statement (i : Instr) : Prop := decode (encode i) = .ok i

theorem read (ra count : Byte) : Statement (.read ra count) := by
  simp only [Statement, encode, decode, decodeCmd_read]

theorem write (ra value : Byte) : Statement (.write ra value) := by
  simp only [Statement, encode, decode, decodeCmd_write]

theorem idle : Statement .idle := rfl
theorem pStart : Statement .pStart := rfl
theorem pSlaw : Statement .pSlaw := rfl
theorem pReg : Statement .pReg := rfl
theorem pRstart : Statement .pRstart := rfl
theorem pSlar : Statement .pSlar := rfl
theorem pRxdata : Statement .pRxdata := rfl
theorem pWdata : Statement .pWdata := rfl
theorem pSettle : Statement .pSettle := rfl
theorem actNone : Statement .actNone := rfl
theorem actStart : Statement .actStart := rfl
theorem actTx (d : Byte) : Statement (.actTx d) := rfl
theorem actRxa : Statement .actRxa := rfl
theorem actRxn : Statement .actRxn := rfl
theorem actStop : Statement .actStop := rfl
theorem dec (b : Byte) : Statement (.dec b) := rfl
theorem enc (v : Byte) : Statement (.enc v) := rfl

theorem dect (blk : Block) : Statement (.dect blk) := by
  simp only [Statement, encode, decode, Block.unpack_pack]

theorem val (blk : Block) : Statement (.val blk) := by
  simp only [Statement, encode, decode, Block.unpack_pack]

theorem enct (wc : WallClock) : Statement (.enct wc) := by
  simp only [Statement, encode, decode, WallClock.unpack_pack]

end Sys2Proof.Laws.RoundTrip
end

