-- ==== Sys2Proof/Machine/Pseudo.lean ====
section
/-! DEFINITION. The pseudo-instructions (30_encoding.md R99): each is a list of instructions the host issues one
after another, the next one when `done = 1`. They are no rows of the opcode table. -/

namespace Sys2Proof.Machine

/-- `RDTIME` (30_encoding.md R99). -/
def expandRdtime : List Instr := [.read rtcBase rtcNRegs]

/-- `SEED b0, ..., b6`: the registers 0x00 to 0x06 in rising order, whatever each result (30_encoding.md R99). -/
def expandSeed (blk : Block) : List Instr :=
  [.write 0x00 blk.b0, .write 0x01 blk.b1, .write 0x02 blk.b2, .write 0x03 blk.b3, .write 0x04 blk.b4,
    .write 0x05 blk.b5, .write 0x06 blk.b6]

/-- `SETTIME wc`: `SEED` with the bytes of `ENCT(wc)`; `k` numbers the free values of operands of 100 or more
(30_encoding.md R99; log 6). -/
def expandSettime (k : Nat) (wc : WallClock) : List Instr := expandSeed (encodeClock k wc)

/-- `GETTIME` after its `RDTIME` has ended in state `s`: `DECT` if `res_code = OK` (30_encoding.md R99). -/
def expandGettimeTail (s : State) : List Instr :=
  match s.resCode with
  | .ok => [.dect s.buf]
  | .noResult | .fail | .rejected => []

end Sys2Proof.Machine
end

