-- ==== Sys2Proof/Tests/Slice0.lean ====
section
/-! SUPPORT. The model's own tests: ill-formed terms, words written out from 30_encoding.md, single steps with the
results of 95_test_vectors.md part 3, and for each statement with hypotheses a witness that meets them. -/

namespace Sys2Proof.Tests

open Sys2Proof.Machine

/-- The buffer before every row of 95_test_vectors.md 3.4. -/
def oldBuf : Block := { b0 := 0x11, b1 := 0x12, b2 := 0x13, b3 := 0x14, b4 := 0x15, b5 := 0x16, b6 := 0x17 }

/-- The block of example S7 (95_test_vectors.md part 1). -/
def s7 : Block := { b0 := 0x45, b1 := 0x19, b2 := 0x22, b3 := 0x01, b4 := 0x28, b5 := 0x02, b6 := 0x21 }

/-- The time of example S7. -/
def s7Time : WallClock :=
  { second := 45, minute := 19, hour := 22, weekday := 0, day := 28, month := 1, year := 2021 }

/-- Ports that bring `DONE(x, d)`. -/
def doneIn (x d : Byte) : PortIn := { PortIn.silent with peDone := true, peStatus := x, peRxdata := d }

/-- Ports that present a command. -/
def cmdIn (w : BitVec 17) : PortIn := { PortIn.silent with cmdValid := true, cmd := w }

/-- A state in phase `p`, with the values of 95_test_vectors.md 3.3. -/
def st (p : Phase) (o : Op) (c i : BitVec 3) (io : PortIn) : State :=
  { State.reset with ph := p, op := o, cnt := c, idx := i, ra := 0x03, wd := 0x45, buf := oldBuf, port := io }

/-- The idle block with a command on its port and the coming inputs. -/
def asked (w : BitVec 17) (ins : List PortIn) : State :=
  { st .idle .read 0 0 (cmdIn w) with script := ins }

/-- What holds after `exec`. -/
def after (i : Instr) (s : State) (f : State → Bool) : Bool :=
  match exec i s with
  | .next t => f t
  | .fault _ => false
  | .refused _ => false

/-- What holds after `step`. -/
def stepped (s : State) (f : State → Bool) : Bool :=
  match step s with
  | .next t => f t
  | .fault _ => false
  | .refused _ => false

/-- The four result registers. -/
def result (s : State) : ResCode × Tag × BitVec 3 × Byte := (s.resCode, s.resTag, s.resIdx, s.resStatus)

/-! ### Ill-formed terms -/

theorem test_wellFormed_refuses_count_0 : (Instr.read 0x00 0).wellFormed = false := by decide
theorem test_wellFormed_refuses_count_8 : (Instr.read 0x00 8).wellFormed = false := by decide
theorem test_wellFormed_takes_count_1_and_7 :
    (Instr.read 0xFF 1).wellFormed = true ∧ (Instr.read 0xFF 7).wellFormed = true := by decide

/-! ### Words written out bit by bit (30_encoding.md R76, R79, R80, R93, R95; 95_test_vectors.md 3.1) -/

theorem test_decode_cmd_read : decode (.cmd 0b00000001000000001#17) = .ok (.read 0x02 1) := by decide
theorem test_decode_cmd_write : decode (.cmd 0b10000011000100001#17) = .ok (.write 0x06 0x21) := by decide
theorem test_decode_cmd_reserved_count :
    decode (.cmd 0b01111111111111111#17) = .ok (.read 0xFF 0xFF) := by decide
theorem test_decode_phases :
    [0b0000#4, 0b0001#4, 0b0010#4, 0b0011#4, 0b0100#4, 0b0101#4, 0b0110#4, 0b0111#4, 0b1000#4].map
      (fun c => decode (.phase c)) =
    [Instr.idle, .pStart, .pSlaw, .pReg, .pRstart, .pSlar, .pRxdata, .pWdata, .pSettle].map .ok := by decide
theorem test_decode_phase_reserved :
    decode (.phase 0b1001#4) = .error (.reservedPhase 9) ∧ decode (.phase 0b1111#4) = .error (.reservedPhase 15) := by
  decide
theorem test_decode_actions :
    [0b000#3, 0b001#3, 0b010#3, 0b011#3, 0b100#3, 0b101#3].map (fun c => decode (.act c 0xD0)) =
    [Instr.actNone, .actStart, .actTx 0xD0, .actRxa, .actRxn, .actStop].map .ok := by decide
theorem test_decode_action_reserved :
    decode (.act 0b110#3 0x00) = .error (.reservedAction 6) ∧
      decode (.act 0b111#3 0x00) = .error (.reservedAction 7) := by decide
theorem test_decode_dec : decode (.decIn 0b01011001#8) = .ok (.dec 0x59) := by decide
theorem test_decode_enc : decode (.encIn 0b00111011#8) = .ok (.enc 59) := by decide
theorem test_decode_dect :
    decode (.dectIn 0b00100001000000100010100000000001001000100001100101000101#56) = .ok (.dect s7) := by decide
theorem test_decode_val :
    decode (.valIn 0b00100001000000100010100000000001001000100001100101000101#56) = .ok (.val s7) := by decide
theorem test_decode_enct :
    decode (.wcIn 0b011111100101000000010001110000000000000101100001001100101101#60) = .ok (.enct s7Time) := by decide
theorem test_encode_words :
    encode (.write 0x00 0x45) = .cmd 0x10045 ∧ encode (.read 0x04 3) = .cmd 0x00403 ∧
      encode .pSettle = .phase 8 ∧ encode .actStop = .act 5 0 ∧ encode (.dect s7) = .dectIn 0x21022801221945 := by
  decide

/-! ### Words of the opcode table, placed and run first after reset (logs 14 and 15) -/

theorem test_table_words :
    decodeTableWord 24 0x00007 = some (.read 0 7) ∧ decodeTableWord 24 0x10222 = some (.write 2 0x22) ∧
      decodeTableWord 8 6 = some .pRxdata ∧ decodeTableWord 3 5 = some .actStop ∧
      decodeTableWord 8 0x59 = some (.dec 0x59) ∧ decodeTableWord 56 0x21022801221945 = some (.dect s7) ∧
      decodeTableWord 8 9 = none ∧ decodeTableWord 24 0x20000 = none := by decide
theorem test_placed_command_runs :
    stepped (State.reset.withFetchWord 24 0x00007) (fun t => decide (t.ph = .pStart ∧ t.cnt = 7 ∧ t.act = .start)) =
      true := by decide
theorem test_placed_phase_runs :
    stepped (State.reset.withFetchWord 8 8) (fun t => decide (t.ph = .idle ∧ t.resCode = .ok)) = true := by decide
theorem test_placed_block_runs :
    stepped (State.reset.withFetchWord 56 0x21022801221945) (fun t => decide (t.codec.t = s7Time)) = true := by decide
theorem test_placed_clock_runs :
    stepped (State.reset.withFetchWord 64 0x7E5011C0016132D) (fun t => decide (t.codec.blkOut = s7)) = true := by decide

/-! ### Reset (95_test_vectors.md 3.9) -/

theorem test_reset_from_rxdata :
    stepped (st .pRxdata .read 7 3 { PortIn.silent with rst := true }) (fun t => decide
      (t.ph = .idle ∧ t.idx = 0 ∧ result t = (.noResult, .noTag, 0, 0) ∧ t.buf = oldBuf ∧ t.act = .noAct)) = true := by
  decide
theorem test_reset_from_failure :
    stepped { st .idle .read 7 0 { PortIn.silent with rst := true } with
        resCode := .fail, resTag := .rstart, resStatus := 0x08 }
      (fun t => decide (result t = (.noResult, .noTag, 0, 0)) && !done t) = true := by decide

/-! ### Single steps (95_test_vectors.md 3.1 to 3.8) -/

theorem test_read_accepted :
    after (.read 0x02 1) (st .idle .write 1 0 PortIn.silent) (fun t => decide (t.ph = .pStart ∧ t.op = .read ∧ t.ra = 0x02 ∧ t.cnt = 1 ∧ t.wd = 0 ∧ t.act = .start)) = true := by decide
theorem test_read_rejected :
    after (.read 0x00 8) (st .idle .write 1 0 PortIn.silent) (fun t => decide (t.ph = .idle ∧ t.op = .write ∧ t.ra = 0x03 ∧ result t = (.rejected, .noTag, 0, 0) ∧ t.act = .noAct)) = true := by decide
theorem test_write_accepted :
    after (.write 0xFF 0x00) (st .idle .read 7 6 PortIn.silent) (fun t => decide (t.ph = .pStart ∧ t.op = .write ∧ t.ra = 0xFF ∧ t.wd = 0 ∧ t.cnt = 1 ∧ t.idx = 0)) = true := by decide
theorem test_write_ignored_while_busy :
    after (.write 0x00 0x45) (st .pReg .read 7 0 PortIn.silent) (fun t => decide (t = st .pReg .read 7 0 PortIn.silent)) = true := by decide
theorem test_idle_ignores_completion :
    after .idle (st .idle .read 7 0 (doneIn 0x08 0)) (fun t => decide (t = st .idle .read 7 0 (doneIn 0x08 0))) = true := by decide
theorem test_idle_takes_command :
    after .idle (asked 0x10222 []) (fun t => decide (t.ph = .pStart ∧ t.ra = 0x02 ∧ t.wd = 0x22)) = true := by decide
theorem test_pStart_match :
    after .pStart (st .pStart .read 7 0 (doneIn 0x08 0)) (fun t => decide (t.ph = .pSlaw ∧ t.act = .tx ∧ t.txd = 0xD0)) = true := by decide
theorem test_pStart_mismatch :
    after .pStart (st .pStart .read 7 0 (doneIn 0x10 0)) (fun t => decide (t.ph = .idle ∧ t.act = .noAct ∧ result t = (.fail, .start, 0, 0x10))) = true := by decide
theorem test_pSlaw_match :
    after .pSlaw (st .pSlaw .read 7 0 (doneIn 0x18 0)) (fun t => decide (t.ph = .pReg ∧ t.act = .tx ∧ t.txd = 0x03)) = true := by decide
theorem test_pSlaw_mismatch :
    after .pSlaw (st .pSlaw .write 1 0 (doneIn 0x08 0)) (fun t => decide (t.ph = .idle ∧ t.act = .noAct ∧ result t = (.fail, .addrWAck, 0, 0x08))) = true := by decide
theorem test_pReg_read :
    after .pReg (st .pReg .read 7 0 (doneIn 0x28 0)) (fun t => decide (t.ph = .pRstart ∧ t.act = .start)) = true := by decide
theorem test_pReg_write :
    after .pReg (st .pReg .write 1 0 (doneIn 0x28 0)) (fun t => decide (t.ph = .pWdata ∧ t.act = .tx ∧ t.txd = 0x45)) = true := by decide
theorem test_pRstart_match :
    after .pRstart (st .pRstart .read 7 0 (doneIn 0x10 0)) (fun t => decide (t.ph = .pSlar ∧ t.act = .tx ∧ t.txd = 0xD1)) = true := by decide
theorem test_pRstart_mismatch :
    after .pRstart (st .pRstart .read 7 0 (doneIn 0x08 0)) (fun t => decide (t.ph = .idle ∧ result t = (.fail, .rstart, 0, 0x08))) = true := by decide
theorem test_pSlar_one_byte :
    after .pSlar (st .pSlar .read 1 0 (doneIn 0x40 0)) (fun t => decide (t.ph = .pRxdata ∧ t.act = .rxn)) = true := by decide
theorem test_pSlar_two_bytes :
    after .pSlar (st .pSlar .read 2 0 (doneIn 0x40 0)) (fun t => decide (t.ph = .pRxdata ∧ t.act = .rxa)) = true := by decide
theorem test_pRxdata_next_to_last :
    after .pRxdata (st .pRxdata .read 7 5 (doneIn 0x50 0x02)) (fun t => decide (t.ph = .pRxdata ∧ t.act = .rxn ∧ t.idx = 6 ∧ t.buf = { oldBuf with b5 := 0x02 })) = true := by decide
theorem test_pRxdata_last_mismatch :
    after .pRxdata (st .pRxdata .read 7 6 (doneIn 0x50 0x21)) (fun t => decide (t.ph = .idle ∧ t.act = .noAct ∧ result t = (.fail, .dataByte, 6, 0x50) ∧ t.buf = oldBuf)) = true := by decide
theorem test_pWdata_match :
    after .pWdata (st .pWdata .write 1 0 (doneIn 0x28 0)) (fun t => decide (t.ph = .pSettle ∧ t.act = .stop ∧ t.resCode = .noResult)) = true := by decide
theorem test_pWdata_mismatch :
    after .pWdata (st .pWdata .write 1 0 (doneIn 0x30 0)) (fun t => decide (t.ph = .idle ∧ t.act = .noAct ∧ result t = (.fail, .dataByte, 0, 0x30))) = true := by decide
theorem test_pSettle_ends :
    after .pSettle (st .pSettle .write 1 0 PortIn.silent) (fun t => decide (t.ph = .idle ∧ t.act = .noAct ∧ t.resCode = .ok)) = true := by decide
theorem test_pSettle_counts :
    after .pSettle { st .pSettle .write 1 0 (doneIn 0x08 0) with settle := 5 } (fun t => decide (t.ph = .pSettle ∧ t.settle = 4 ∧ t.resCode = .noResult)) = true := by decide
theorem test_actNone :
    after .actNone (st .idle .read 7 0 PortIn.silent) (fun t => decide (peAction t = 0 ∧ t = { st .idle .read 7 0 PortIn.silent with act := .noAct })) = true := by decide
theorem test_actStart :
    after .actStart (st .idle .read 7 0 PortIn.silent) (fun t => decide (peAction t = 1 ∧ t = { st .idle .read 7 0 PortIn.silent with act := .start })) = true := by decide
theorem test_actRxa :
    after .actRxa (st .idle .read 7 0 PortIn.silent) (fun t => decide (peAction t = 3 ∧ t = { st .idle .read 7 0 PortIn.silent with act := .rxa })) = true := by decide
theorem test_actRxn :
    after .actRxn (st .idle .read 7 0 PortIn.silent) (fun t => decide (peAction t = 4 ∧ t = { st .idle .read 7 0 PortIn.silent with act := .rxn })) = true := by decide
theorem test_actStop :
    after .actStop (st .idle .read 7 0 PortIn.silent) (fun t => decide (peAction t = 5 ∧ t = { st .idle .read 7 0 PortIn.silent with act := .stop })) = true := by decide
theorem test_actTx :
    after (.actTx 0x45) (st .idle .read 7 0 PortIn.silent) (fun t => decide (peAction t = 2 ∧ peTxdata t = 0x45 ∧ peReq t = true)) = true := by decide
theorem test_dec_valid :
    after (.dec 0x59) State.reset (fun t => decide (t.codec.decOut = 59 ∧ t.port.decIn = 0x59)) = true := by decide
theorem test_dec_maximum :
    after (.dec 0xFF) State.reset (fun t => decide (t.codec.decOut = 165)) = true := by decide
theorem test_enc_end_of_domain :
    after (.enc 99) State.reset (fun t => decide (t.codec.encOut = 0x99)) = true := by decide
theorem test_enc_above_domain : ∀ hi : BitVec 4, encByte hi 165 = hi ++ 0x5#4 := by decide
theorem test_dect_s7 :
    after (.dect s7) State.reset (fun t => decide (t.codec.t = s7Time)) = true := by decide
theorem test_dect_out_of_range :
    after (.dect { b0 := 0xC5, b1 := 0x6A, b2 := 0x52, b3 := 0x00, b4 := 0x32, b5 := 0x13, b6 := 0xFF }) State.reset (fun t => decide (t.codec.t =
      { second := 45, minute := 70, hour := 52, weekday := 255, day := 32, month := 12, year := 2165 })) = true := by decide
theorem test_val_hours :
    after (.val { s7 with b2 := 0x29 }) State.reset (fun t => decide (t.codec.tFv = 0b1111011 ∧ t.codec.tValid = false ∧ t.codec.tCh = false)) = true := by decide
theorem test_val_halted :
    after (.val { s7 with b0 := 0xC5 }) State.reset (fun t => decide (t.codec.tFv = 0b1111111 ∧ t.codec.tValid = true ∧ t.codec.tCh = true)) = true := by decide
theorem test_enct_s7 :
    after (.enct s7Time) State.reset (fun t => decide (t.codec.blkOut = s7)) = true := by decide
theorem test_enct_maximum :
    after (.enct { second := 59, minute := 59, hour := 23, weekday := 6, day := 31, month := 11, year := 2099 }) State.reset (fun t => decide (t.codec.blkOut =
      { b0 := 0x59, b1 := 0x59, b2 := 0x23, b3 := 0x07, b4 := 0x31, b5 := 0x12, b6 := 0x99 })) = true := by decide

/-- `SEED` of example P1 is the seven commands 0x10045 to 0x10621 (95_test_vectors.md part 4). -/
theorem test_seed_words :
    (expandSeed s7).map encode =
      [PortWord.cmd 0x10045, .cmd 0x10119, .cmd 0x10222, .cmd 0x10301, .cmd 0x10428, .cmd 0x10502, .cmd 0x10621] := by
  decide

/-! ### Witnesses: for each statement with hypotheses, states and operands that meet them -/

theorem test_witness_EveryWordHasOneMeaning :
    (0#4).toNat ≤ 8 ∧ (8#4).toNat ≤ 8 ∧ 9 ≤ (9#4).toNat ∧ 9 ≤ (15#4).toNat ∧ 6 ≤ (6#3).toNat ∧ 6 ≤ (7#3).toNat ∧
      (0#3).toNat ≤ 5 ∧ (5#3).toNat ≤ 5 := by decide
theorem presents_asked (w : BitVec 17) (ins : List PortIn) : presents w (asked w ins) := ⟨rfl, rfl, rfl, rfl⟩
theorem test_witness_OperandsComeFromTheCommandWord_read :
    presents 0x0FF01 (asked 0x0FF01 []) ∧ (0x0FF01#17).toNat < 2 ^ 16 ∧ 1 ≤ (0x0FF01#17).toNat % 2 ^ 8 ∧
      presents 0x0FF07 (asked 0x0FF07 []) ∧ (0x0FF07#17).toNat < 2 ^ 16 ∧ (0x0FF07#17).toNat % 2 ^ 8 ≤ 7 :=
  ⟨presents_asked _ _, by decide, by decide, presents_asked _ _, by decide, by decide⟩
theorem test_witness_OperandsComeFromTheCommandWord_reserved :
    presents 0x00000 (asked 0x00000 []) ∧ (0x00000#17).toNat % 2 ^ 8 = 0 ∧
      presents 0x00008 (asked 0x00008 []) ∧ 8 ≤ (0x00008#17).toNat % 2 ^ 8 ∧ (0x00008#17).toNat < 2 ^ 16 :=
  ⟨presents_asked _ _, by decide, presents_asked _ _, by decide, by decide⟩
theorem test_witness_OperandsComeFromTheCommandWord_write :
    presents 0x10000 (asked 0x10000 []) ∧ 2 ^ 16 ≤ (0x10000#17).toNat := ⟨presents_asked _ _, by decide⟩
theorem test_witness_ResetEdgeClearsAllButTheBuffer :
    (st .pSettle .write 1 0 { PortIn.silent with rst := true }).port.rst = true := rfl
theorem test_witness_LegalReadIsAccepted :
    (asked 0 []).ph = .idle ∧ 1 ≤ (1 : Byte).toNat ∧ (1 : Byte).toNat ≤ 7 ∧ 1 ≤ (7 : Byte).toNat ∧ (7 : Byte).toNat ≤ 7 := by decide
theorem test_witness_ReservedReadIsRejected :
    (asked 0 []).ph = .idle ∧ (0 : Byte).toNat = 0 ∧ 8 ≤ (8 : Byte).toNat ∧ 8 ≤ (255 : Byte).toNat := by decide
theorem test_witness_WriteIsAccepted :
    (st .idle .read 7 6 PortIn.silent).ph = .idle := rfl
theorem test_witness_CommandWhileBusyHasNoEffect :
    (st .pSettle .write 1 0 (cmdIn 0x00007)).ph ≠ .idle ∧ presents 0x10045 (asked 0x10045 []) := ⟨by decide, presents_asked _ _⟩

/-- A busy block on which a command is held for one more cycle. -/
def heldCmd : State := { st .pReg .read 7 0 (cmdIn 0x00007) with script := [cmdIn 0x00007] }

theorem test_witness_DoneRisesExactlyWithAResult_held :
    ∃ t, hostKeepsDuty heldCmd ∧ heldCmd.ph ≠ .idle ∧ heldCmd.port.cmdValid = true ∧ step heldCmd = .next t :=
  ⟨_, fun _ => .inr ⟨rfl, rfl⟩, by decide, rfl, rfl⟩
theorem test_witness_DoneRisesExactlyWithAResult_taken :
    let s := { st .pSettle .write 1 0 (cmdIn 0x00007) with script := [cmdIn 0x00007] }
    ∃ t, hostKeepsDuty s ∧ s.ph ≠ .idle ∧ step s = .next t ∧ t.ph = .idle ∧ t.port.rst = false :=
  ⟨_, fun _ => .inr ⟨rfl, rfl⟩, by decide, rfl, rfl, rfl⟩
theorem test_witness_IdleWithoutCommandOnlyClearsAct :
    (st .idle .read 7 6 PortIn.silent).ph = .idle ∧ (st .idle .read 7 6 PortIn.silent).port.cmdValid = false ∧
      (asked 0x00000 []).ph = .idle ∧ (asked 0x00000 []).port.cmdValid = true := by decide
theorem test_witness_phases :
    (st .pStart .read 7 0 (doneIn 0x08 0)).ph = .pStart ∧ (st .pSlaw .read 7 0 (doneIn 0x18 0)).ph = .pSlaw ∧
      (st .pReg .write 1 0 (doneIn 0x28 0)).ph = .pReg ∧ (st .pRstart .read 7 0 (doneIn 0x10 0)).ph = .pRstart ∧
      (st .pSlar .read 1 0 (doneIn 0x40 0)).ph = .pSlar ∧ (st .pRxdata .read 7 6 (doneIn 0x58 0)).ph = .pRxdata ∧
      (st .pWdata .write 1 0 (doneIn 0x28 0)).ph = .pWdata ∧ (st .pSettle .write 1 0 PortIn.silent).ph = .pSettle := by decide
theorem test_witness_PhaseRowRunsOnlyInItsPhase :
    (st .pSettle .write 1 0 PortIn.silent).ph ≠ .pWdata := by decide
theorem mismatch_last : mismatch (st .pRxdata .read 7 6 (doneIn 0x50 0x21)) := ⟨rfl, _, rfl, by decide⟩
theorem test_witness_MismatchAborts :
    mismatch (st .pStart .read 7 0 (doneIn 0x10 0)) ∧ mismatch (st .pRxdata .read 7 6 (doneIn 0x50 0x21)) ∧
      mismatch (st .pRxdata .read 7 2 (doneIn 0x58 0x22)) ∧ mismatch (st .pWdata .write 1 0 (doneIn 0x30 0)) :=
  ⟨⟨rfl, _, rfl, by decide⟩, mismatch_last, ⟨rfl, _, rfl, by decide⟩, ⟨rfl, _, rfl, by decide⟩⟩
theorem legal_last : LegalState (st .pRxdata .read 7 6 (doneIn 0x50 0x21)) := by
  constructor <;> decide
theorem legal_failed : LegalState { st .idle .read 7 6 PortIn.silent with resCode := .fail, resTag := .dataByte } := by
  constructor <;> decide
theorem test_witness_FailureExactlyOnMismatch_busy :
    LegalState (st .pRxdata .read 7 6 (doneIn 0x50 0x21)) ∧
      (∃ t, step (st .pRxdata .read 7 6 (doneIn 0x50 0x21)) = .next t ∧ t.resCode = .fail) ∧
      mismatch (st .pRxdata .read 7 6 (doneIn 0x50 0x21)) :=
  ⟨legal_last, ⟨_, rfl, by decide⟩, mismatch_last⟩
theorem test_witness_FailureExactlyOnMismatch_idle :
    ∃ t, LegalState { st .idle .read 7 6 PortIn.silent with resCode := .fail, resTag := .dataByte } ∧
      step { st .idle .read 7 6 PortIn.silent with resCode := .fail, resTag := .dataByte } = .next t ∧
      t.resCode = .fail := ⟨_, legal_failed, rfl, by decide⟩
theorem test_witness_NextLegalCommandLeavesTheFailedState :
    presents 0x00001 (asked 0x00001 []) ∧ (decodeCmd 0x00001).wellFormed = true ∧ presents 0x00007 (asked 0x00007 []) ∧
      (decodeCmd 0x00007).wellFormed = true ∧ (st .idle .read 7 6 PortIn.silent).ph = .idle ∧
      (st .idle .read 7 6 PortIn.silent).port.rst = false ∧ (st .idle .read 7 6 PortIn.silent).port.cmdValid = false :=
  ⟨presents_asked _ _, by decide, presents_asked _ _, by decide, rfl, rfl, rfl⟩
theorem test_witness_NextLegalCommandLeavesTheFailedState_reserved :
    presents 0x00000 (asked 0x00000 []) ∧ (decodeCmd 0x00000).wellFormed = false ∧ presents 0x00008 (asked 0x00008 []) ∧
      (decodeCmd 0x00008).wellFormed = false :=
  ⟨presents_asked _ _, by decide, presents_asked _ _, by decide⟩
theorem test_witness_NextPhaseFollowsTheTable_reset :
    let s := st .pWdata .write 1 0 { PortIn.silent with rst := true }
    s.port.rst = true ∧ s.ph = .pWdata := by decide
theorem test_witness_NextPhaseFollowsTheTable_idle :
    let s := st .idle .read 7 0 PortIn.silent
    s.port.rst = false ∧ s.ph = .idle ∧ s.port.cmdValid = false := by decide
theorem test_witness_NextPhaseFollowsTheTable_read :
    let s := asked 0x0FF07 []
    s.port.rst = false ∧ s.ph = .idle ∧ s.port.cmdValid = true ∧ s.port.cmd = 0#1 ++ 0xFF#8 ++ 7#8 := by decide
theorem test_witness_NextPhaseFollowsTheTable_read_one :
    let s := asked 0x0FF01 []
    s.port.rst = false ∧ s.ph = .idle ∧ s.port.cmdValid = true ∧ s.port.cmd = 0#1 ++ 0xFF#8 ++ 1#8 := by decide
theorem test_witness_NextPhaseFollowsTheTable_write :
    let s := asked 0x1FF00 []
    s.port.rst = false ∧ s.ph = .idle ∧ s.port.cmdValid = true ∧ s.port.cmd = 1#1 ++ 0xFF#8 ++ 0x00#8 := by decide
theorem test_witness_NextPhaseFollowsTheTable_reserved_0 :
    let s := asked 0x0FF00 []
    s.port.rst = false ∧ s.ph = .idle ∧ s.port.cmdValid = true ∧ s.port.cmd = 0#1 ++ 0xFF#8 ++ 0#8 := by decide
theorem test_witness_NextPhaseFollowsTheTable_reserved_8 :
    let s := asked 0x0FF08 []
    s.port.rst = false ∧ s.ph = .idle ∧ s.port.cmdValid = true ∧ s.port.cmd = 0#1 ++ 0xFF#8 ++ 8#8 := by decide
theorem test_witness_NextPhaseFollowsTheTable_wait :
    let s := st .pSlar .read 7 0 PortIn.silent
    s.port.rst = false ∧ waiting s.ph = true ∧ s.port.peDone = false := by decide
theorem test_witness_NextPhaseFollowsTheTable_start :
    let s := st .pStart .read 7 0 (doneIn 0x08 0x21)
    s.port.rst = false ∧ s.ph = .pStart ∧ s.port.peDone = true ∧ s.port.peStatus = stStart := by decide
theorem test_witness_NextPhaseFollowsTheTable_slaw :
    let s := st .pSlaw .read 7 0 (doneIn 0x18 0x21)
    s.port.rst = false ∧ s.ph = .pSlaw ∧ s.port.peDone = true ∧ s.port.peStatus = stSlawAck := by decide
theorem test_witness_NextPhaseFollowsTheTable_reg_read :
    let s := st .pReg .read 7 0 (doneIn 0x28 0x21)
    s.port.rst = false ∧ s.ph = .pReg ∧ s.port.peDone = true ∧ s.port.peStatus = stTxdataAck ∧ s.op = .read := by decide
theorem test_witness_NextPhaseFollowsTheTable_reg_write :
    let s := st .pReg .write 1 0 (doneIn 0x28 0x21)
    s.port.rst = false ∧ s.ph = .pReg ∧ s.port.peDone = true ∧ s.port.peStatus = stTxdataAck ∧ s.op = .write := by decide
theorem test_witness_NextPhaseFollowsTheTable_rstart :
    let s := st .pRstart .read 7 0 (doneIn 0x10 0x21)
    s.port.rst = false ∧ s.ph = .pRstart ∧ s.port.peDone = true ∧ s.port.peStatus = stRstart := by decide
theorem test_witness_NextPhaseFollowsTheTable_slar :
    let s := st .pSlar .read 1 0 (doneIn 0x40 0x21)
    s.port.rst = false ∧ s.ph = .pSlar ∧ s.port.peDone = true ∧ s.port.peStatus = stSlarAck := by decide
theorem test_witness_NextPhaseFollowsTheTable_rxdata_more :
    let s := st .pRxdata .read 7 5 (doneIn 0x50 0x21)
    s.port.rst = false ∧ s.ph = .pRxdata ∧ s.port.peDone = true ∧ s.port.peStatus = stRxdataAck ∧ s.idx.toNat + 1 ≠ s.cnt.toNat := by decide
theorem test_witness_NextPhaseFollowsTheTable_rxdata_last :
    let s := st .pRxdata .read 7 6 (doneIn 0x58 0x21)
    s.port.rst = false ∧ s.ph = .pRxdata ∧ s.port.peDone = true ∧ s.port.peStatus = stRxdataNack ∧ s.idx.toNat + 1 = s.cnt.toNat := by decide
theorem test_witness_NextPhaseFollowsTheTable_wdata :
    let s := st .pWdata .write 1 0 (doneIn 0x28 0x21)
    s.port.rst = false ∧ s.ph = .pWdata ∧ s.port.peDone = true ∧ s.port.peStatus = stTxdataAck := by decide
theorem test_witness_NextPhaseFollowsTheTable_settled :
    let s := st .pSettle .write 1 0 PortIn.silent
    s.port.rst = false ∧ s.ph = .pSettle ∧ s.settle = 0 := by decide
theorem test_witness_NextPhaseFollowsTheTable_settling :
    let s := { st .pSettle .write 1 0 PortIn.silent with settle := 1 }
    s.port.rst = false ∧ s.ph = .pSettle ∧ s.settle ≠ 0 := by decide
theorem test_witness_OneThingHappensAtEachEdge :
    (asked 0x00007 []).port.rst = false ∧ (asked 0x00007 []).ph = .idle ∧ (asked 0x00007 []).port.cmdValid = true ∧
      waiting (st .pReg .read 7 0 (doneIn 0x28 0)).ph = true ∧ (st .pReg .read 7 0 (doneIn 0x28 0)).port.peDone = true ∧
      (st .pReg .read 7 0 (doneIn 0x28 0)).port.rst = false := by decide
theorem test_witness_StrayCompletionIsIgnored :
    (st .idle .read 7 0 (doneIn 0x08 0)).ph = .idle ∧ (st .idle .read 7 0 (doneIn 0x08 0)).port.cmdValid = false ∧
      (st .pSettle .write 1 0 (doneIn 0x08 0)).ph = .pSettle := by decide
theorem test_witness_StatusIsSampledOnlyAtCompletion :
    (st .pRxdata .read 7 0 PortIn.silent).port.peDone = false ∧ (st .pReg .read 7 0 (doneIn 0x28 0)).ph ≠ .pRxdata := by decide
theorem test_witness_StopIsIssuedByTwoStepsOnly :
    (∃ t, step (st .pRxdata .read 1 0 (doneIn 0x58 0x22)) = .next t ∧ issued t = some .stop) ∧
      (∃ t, step (st .pWdata .write 1 0 (doneIn 0x28 0)) = .next t ∧ issued t = some .stop) ∧
      (∃ t, step (st .pWdata .write 1 0 (doneIn 0x30 0)) = .next t ∧ issued t = none) :=
  ⟨⟨_, rfl, by decide⟩, ⟨_, rfl, by decide⟩, ⟨_, rfl, by decide⟩⟩
theorem test_witness_ActionsFollowExpectedCompletions :
    (∃ t, step (asked 0x00007 []) = .next t ∧ issued t ≠ none) ∧
      (∃ t, step (st .pStart .read 7 0 (doneIn 0x08 0)) = .next t ∧ issued t ≠ none) := ⟨⟨_, rfl, by decide⟩, ⟨_, rfl, by decide⟩⟩
theorem test_witness_ActionsFollowExpectedCompletions_outstanding :
    ∃ t, outstandingMatches 1 (st .pStart .read 7 0 (doneIn 0x08 0)) ∧ engineKeepsDuty 1 (st .pStart .read 7 0 (doneIn 0x08 0)) ∧
      (st .pStart .read 7 0 (doneIn 0x08 0)).port.rst = false ∧ step (st .pStart .read 7 0 (doneIn 0x08 0)) = .next t :=
  ⟨_, rfl, fun _ => by decide, rfl, rfl⟩
theorem test_witness_ActionsFollowExpectedCompletions_idle_reset :
    let s := st .idle .read 7 0 { PortIn.silent with rst := true }
    ∃ t, outstandingMatches 0 s ∧ engineKeepsDuty 0 s ∧ s.port.rst = true ∧ waiting s.ph = false ∧ step s = .next t :=
  ⟨_, rfl, nofun, rfl, rfl, rfl⟩
theorem test_witness_ActionsFollowExpectedCompletions_reset :
    let s := st .pWdata .write 1 0 { PortIn.silent with rst := true }
    ∃ t, outstandingMatches 1 s ∧ waiting s.ph = true ∧ s.port.rst = true ∧ s.port.peDone = false ∧ step s = .next t :=
  ⟨_, rfl, rfl, rfl, rfl, rfl⟩
theorem test_witness_TransmittedBytesPerPhase :
    (∃ t, step (st .pStart .read 7 0 (doneIn 0x08 0)) = .next t ∧ issued t = some (.tx 0xD0)) ∧
      (∃ t, step (st .pRstart .read 7 0 (doneIn 0x10 0)) = .next t ∧ issued t = some (.tx 0xD1)) ∧
      (∃ t, step (st .pReg .write 1 0 (doneIn 0x28 0)) = .next t ∧ issued t = some (.tx 0x45)) ∧
      (∃ t, step (st .pReg .read 7 0 (doneIn 0x28 0)) = .next t ∧ issued t = some .start) :=
  ⟨⟨_, rfl, by decide⟩, ⟨_, rfl, by decide⟩, ⟨_, rfl, by decide⟩, ⟨_, rfl, by decide⟩⟩
theorem test_witness_OperandLatchesChangeOnlyAtAcceptance :
    ∃ t, step (asked 0x00008 []) = .next t ∧ (asked 0x00008 []).port.rst = false ∧
      ¬((asked 0x00008 []).ph = .idle ∧ (asked 0x00008 []).port.cmdValid = true ∧
        (decodeCmd (asked 0x00008 []).port.cmd).wellFormed = true) := ⟨_, rfl, by decide, by decide⟩
theorem test_witness_BufferChangesOnlyByCapture :
    ∃ t, step (st .pRxdata .read 7 6 (doneIn 0x58 0x21)) = .next t ∧ readByte t.buf 6 = 0x21 := ⟨_, rfl, by decide⟩
theorem test_witness_SettleTimerLoadsAndCounts :
    (∃ t, step (st .pWdata .write 1 0 (doneIn 0x28 0)) = .next t ∧ t.ph = .pSettle) ∧
      (∃ t, step { st .pSettle .write 1 0 PortIn.silent with settle := 1 } = .next t) ∧
      (∃ t, step (st .pSettle .write 1 0 PortIn.silent) = .next t) ∧
      inputEvent (st .pSettle .write 1 0 PortIn.silent) = some .settled ∧
      (∃ t, step (st .pStart .read 7 0 (doneIn 0x08 0)) = .next t ∧ t.ph ≠ .pSettle) :=
  ⟨⟨_, rfl, by decide⟩, ⟨_, rfl⟩, ⟨_, rfl⟩, by decide, ⟨_, rfl, by decide⟩⟩
theorem test_witness_NothingHappensWithoutAnEvent :
    (∃ t, inputEvent (st .pReg .read 7 0 PortIn.silent) = none ∧ step (st .pReg .read 7 0 PortIn.silent) = .next t) ∧
      (∃ t, inputEvent { st .pSettle .write 1 0 PortIn.silent with settle := 1 } = none ∧
        step { st .pSettle .write 1 0 PortIn.silent with settle := 1 } = .next t) :=
  ⟨⟨_, by decide, rfl⟩, ⟨_, by decide, rfl⟩⟩
theorem test_witness_DoneRisesExactlyWithAResult :
    ∃ t, step (st .pWdata .write 1 0 (doneIn 0x30 0)) = .next t ∧
      (st .pWdata .write 1 0 (doneIn 0x30 0)).port.rst = false ∧
      Event.result .fail .dataByte 0 0x30 ∈ outputEvents (st .pWdata .write 1 0 (doneIn 0x30 0)) t := ⟨_, rfl, rfl, by decide⟩
theorem test_witness_DoneRisesExactlyWithAResult_read :
    ∃ t, step (st .pRxdata .read 1 0 (doneIn 0x58 0x22)) = .next t ∧ t.ph = .idle ∧ t.resCode = .ok ∧ t.op = .read ∧
      report (st .pRxdata .read 1 0 (doneIn 0x58 0x22)) t = some ⟨.ok, .noTag, 0, 0, some { oldBuf with b0 := 0x22 }⟩ :=
  ⟨_, rfl, rfl, rfl, rfl, by decide⟩
theorem test_witness_DoneRisesExactlyWithAResult_run :
    ∃ u, (∀ p ∈ (asked 0x00000 [cmdIn 0x00000]).port :: (asked 0x00000 [cmdIn 0x00000]).script, p.rst = false) ∧
      commandRun 2 (asked 0x00000 [cmdIn 0x00000]) = some ([.read 0 0, .read 0 0], u) ∧
      reportRun 2 (asked 0x00000 [cmdIn 0x00000]) = some ([⟨.rejected, .noTag, 0, 0, none⟩, ⟨.rejected, .noTag, 0, 0, none⟩], u) ∧
      u.ph = .idle := ⟨_, by decide, rfl, rfl, rfl⟩

/-! ### Duties and the end of a run (41_phases.md R126; 70_reset_and_hazards.md R221, R230, R233, R246) -/

/-- A START in flight when a reset comes, and what the engine sends afterwards. -/
def lateStart (ins : List PortIn) : State :=
  { st .pStart .read 7 0 PortIn.silent with act := .start, script := { PortIn.silent with rst := true } :: ins }

theorem test_late_completion_keeps_the_duties : engineKeepsDuties 3 (lateStart [doneIn 0x08 0]) :=
  (alongRun_succ rfl).2 ⟨nofun, (alongRun_succ rfl).2 ⟨nofun, (alongRun_succ rfl).2 ⟨fun _ => by decide, trivial⟩⟩⟩

theorem test_second_late_completion_breaks_them : ¬engineKeepsDuties 4 (lateStart [doneIn 0x08 0, doneIn 0x08 0]) := by
  intro h
  have h1 := ((alongRun_succ rfl).1 h).2
  have h2 := ((alongRun_succ rfl).1 h1).2
  have h3 := ((alongRun_succ rfl).1 h2).2
  exact absurd (((alongRun_succ rfl).1 h3).1 rfl) (by decide)

theorem test_holding_keeps_the_duty : hostKeepsDuty heldCmd := fun _ => .inr ⟨rfl, rfl⟩

theorem test_withdrawing_breaks_it : ¬hostKeepsDuty { heldCmd with script := [PortIn.silent] } := by
  intro h
  rcases h rfl with h | h
  · exact absurd h (by decide)
  · exact absurd h.1 (by decide)

theorem test_rejected_program_is_over : programOver [.read 0 0] 1 (asked 0x00000 []) :=
  ⟨by decide, _, rfl, rfl, rfl⟩

theorem test_program_in_flight_is_not_over : ¬programOver [.read 0 7] 1 (asked 0x00007 []) := by
  rintro ⟨-, u, h, hp, -⟩
  cases h
  exact absurd hp (by decide)

theorem test_blk_out_packs_s7 : ((execEnct s7Time State.reset) : Host.Outcome State Fault Refusal) =
      .next (driveEnct s7Time State.reset) ∧ blkOut (driveEnct s7Time State.reset) = 0x21022801221945 :=
  ⟨rfl, by decide⟩

theorem test_witness_StepRunsTheDecodedInstruction :
    ∃ u, (asked 0x00007 []).port.rst = false ∧ decode (fetchWord (asked 0x00007 [])) = .ok (.read 0x00 7) ∧
      exec (.read 0x00 7) (asked 0x00007 []) = .next u ∧ (asked 0x00007 []).port.cmdValid = true ∧
      (st .pSettle .write 1 0 PortIn.silent).ph ≠ .idle := ⟨_, rfl, by decide, rfl, rfl, by decide⟩
theorem test_witness_OutputsFollowBufferAndPorts :
    ∃ t, step (st .pRxdata .read 7 6 (doneIn 0x58 0x21)) = .next t := ⟨_, rfl⟩
theorem test_witness_StepKeepsTheInvariant :
    LegalState (st .pRxdata .read 7 6 (doneIn 0x50 0x21)) ∧ ∃ t, step (st .pRxdata .read 7 6 (doneIn 0x50 0x21)) = .next t :=
  ⟨legal_last, _, rfl⟩

/-- The model's own reset state meets the invariant. -/
theorem test_reset_legal : LegalState State.reset := by
  constructor <;> decide

theorem test_reset_codec_follows : CodecFollows State.reset :=
  { dec := by decide, enc_low := by decide, enc_high := by decide, blk := ⟨0, by decide⟩, time := by decide,
    flags := by decide, valid := by decide, halt := by decide }

theorem test_witness_ReachableStatesMeetTheSevenClauses_rxdata :
    ∃ as t, actionRun 6 { State.reset with port := cmdIn 0x00007, script := [doneIn 0x08 0, doneIn 0x18 0, doneIn 0x28 0, doneIn 0x10 0, doneIn 0x40 0], buf := oldBuf } =
      some (as, t) ∧ t.ph = .pRxdata ∧ t.op = .read := ⟨_, _, rfl, by decide⟩
theorem test_witness_ReachableStatesMeetTheSevenClauses_settle :
    ∃ as t, actionRun 5 { State.reset with port := cmdIn 0x10045, script := [doneIn 0x08 0, doneIn 0x18 0, doneIn 0x28 0, doneIn 0x28 0], buf := oldBuf } =
      some (as, t) ∧ t.ph = .pSettle ∧ t.op = .write := ⟨_, _, rfl, by decide⟩
theorem test_witness_ReachableStatesMeetTheSevenClauses_failed :
    ∃ as t, actionRun 2 { State.reset with port := cmdIn 0x00007, script := [doneIn 0x10 0], buf := oldBuf } =
      some (as, t) ∧ t.resCode ≠ .noResult ∧ (tagCode t.resTag).toNat ≠ 0 := ⟨_, _, rfl, by decide⟩
theorem test_witness_UnansweredPhaseWaitsForEver :
    waiting (st .pReg .read 7 0 PortIn.silent).ph = true ∧
      ∀ p ∈ (st .pReg .read 7 0 PortIn.silent).port :: (st .pReg .read 7 0 PortIn.silent).script,
        p.rst = false ∧ p.peDone = false := by decide
theorem test_witness_SettleDelayTakesOneCycleMoreThanTheTimer :
    let s := { st .pSettle .write 1 0 PortIn.silent with settle := 1, script := [PortIn.silent] }
    s.ph = .pSettle ∧ ∀ p ∈ (s.port :: s.script).take (s.settle + 1), p.rst = false := by decide

/-- Answers with a silent cycle before each. -/
def paced (l : List (Byte × Byte)) : List PortIn := l.flatMap fun a => [PortIn.silent, doneIn a.1 a.2]

/-- The answers of 95_test_vectors.md 3.2 to `READ 0x00, 7`. -/
def fullAnswers : List (Byte × Byte) :=
  [(0x08, 0), (0x18, 0), (0x28, 0), (0x10, 0), (0x40, 0), (0x50, 0x45), (0x50, 0x19), (0x50, 0x22), (0x50, 0x01),
    (0x50, 0x28), (0x50, 0x02), (0x58, 0x21)]

/-- The answers to `READ 0x02, 1`. -/
def oneAnswers : List (Byte × Byte) := [(0x08, 0), (0x18, 0), (0x28, 0), (0x10, 0), (0x40, 0), (0x58, 0x22)]

/-- The answers to a `WRITE`. -/
def writeAnswers : List (Byte × Byte) := [(0x08, 0), (0x18, 0), (0x28, 0), (0x28, 0)]

theorem test_witness_ReadWithExpectedStatusesSucceeds_one :
    presents (0#1 ++ 0x02#8 ++ 1#8) (asked 0x00201 (paced oneAnswers ++ [])) ∧ endsInDone (paced oneAnswers) ∧
      (answers (paced oneAnswers)).map Prod.fst = readStatuses 1 :=
  ⟨⟨rfl, rfl, rfl, rfl⟩, ⟨by decide, _, rfl, rfl⟩, by decide⟩
theorem test_witness_ReadWithExpectedStatusesSucceeds_seven :
    presents (0#1 ++ 0x00#8 ++ 7#8) (asked 0x00007 (paced fullAnswers ++ [])) ∧ endsInDone (paced fullAnswers) ∧
      (answers (paced fullAnswers)).map Prod.fst = readStatuses 7 :=
  ⟨⟨rfl, rfl, rfl, rfl⟩, ⟨by decide, _, rfl, rfl⟩, by decide⟩
theorem test_witness_ReadWithUnexpectedStatusFails_first :
    presents (0#1 ++ 0x00#8 ++ 7#8) (asked 0x00007 (paced [(0x38, 0)] ++ [])) ∧ endsInDone (paced [(0x38, 0)]) ∧
      (readStatuses 7)[0]? = some 0x08 ∧ (0x38 : Byte) ≠ 0x08 ∧
      (answers (paced [(0x38, 0)])).map Prod.fst = (readStatuses 7).take 0 ++ [0x38] :=
  ⟨⟨rfl, rfl, rfl, rfl⟩, ⟨by decide, _, rfl, rfl⟩, by decide, by decide, by decide⟩
theorem test_witness_ReadWithUnexpectedStatusFails_last :
    presents (0#1 ++ 0x00#8 ++ 7#8) (asked 0x00007 (paced (fullAnswers.take 11 ++ [(0x50, 0x21)]) ++ [])) ∧ endsInDone (paced (fullAnswers.take 11 ++ [(0x50, 0x21)])) ∧
      (readStatuses 7)[11]? = some 0x58 ∧ (0x50 : Byte) ≠ 0x58 ∧
      (answers (paced (fullAnswers.take 11 ++ [(0x50, 0x21)]))).map Prod.fst = (readStatuses 7).take 11 ++ [0x50] :=
  ⟨⟨rfl, rfl, rfl, rfl⟩, ⟨by decide, _, rfl, rfl⟩, by decide, by decide, by decide⟩
theorem test_witness_ReadWithUnexpectedStatusFails_one_byte :
    presents (0#1 ++ 0x02#8 ++ 1#8) (asked 0x00201 (paced (oneAnswers.take 5 ++ [(0x50, 0x22)]) ++ [])) ∧ endsInDone (paced (oneAnswers.take 5 ++ [(0x50, 0x22)])) ∧
      (readStatuses 1)[5]? = some 0x58 ∧ (0x50 : Byte) ≠ 0x58 ∧
      (answers (paced (oneAnswers.take 5 ++ [(0x50, 0x22)]))).map Prod.fst = (readStatuses 1).take 5 ++ [0x50] :=
  ⟨⟨rfl, rfl, rfl, rfl⟩, ⟨by decide, _, rfl, rfl⟩, by decide, by decide, by decide⟩
theorem test_witness_WriteWithExpectedStatusesSucceeds :
    presents (1#1 ++ 0x02#8 ++ 0x23#8) (asked 0x10223 (paced writeAnswers ++ [])) ∧ endsInDone (paced writeAnswers) ∧
      (∀ p ∈ ([] : List PortIn).take (Config.tSettle + 1), p.rst = false) ∧
      (answers (paced writeAnswers)).map Prod.fst = writeStatuses :=
  ⟨⟨rfl, rfl, rfl, rfl⟩, ⟨by decide, _, rfl, rfl⟩, by simp, by decide⟩
theorem test_witness_WriteWithUnexpectedStatusFails_first :
    presents (1#1 ++ 0x00#8 ++ 0x45#8) (asked 0x10045 (paced [(0x10, 0)] ++ [])) ∧ endsInDone (paced [(0x10, 0)]) ∧
      writeStatuses[0]? = some 0x08 ∧ (0x10 : Byte) ≠ 0x08 ∧
      (answers (paced [(0x10, 0)])).map Prod.fst = writeStatuses.take 0 ++ [0x10] :=
  ⟨⟨rfl, rfl, rfl, rfl⟩, ⟨by decide, _, rfl, rfl⟩, by decide, by decide, by decide⟩
theorem test_witness_WriteWithUnexpectedStatusFails_last :
    presents (1#1 ++ 0x00#8 ++ 0x45#8) (asked 0x10045 (paced (writeAnswers.take 3 ++ [(0x30, 0)]) ++ [])) ∧ endsInDone (paced (writeAnswers.take 3 ++ [(0x30, 0)])) ∧
      writeStatuses[3]? = some 0x28 ∧ (0x30 : Byte) ≠ 0x28 ∧
      (answers (paced (writeAnswers.take 3 ++ [(0x30, 0)]))).map Prod.fst = writeStatuses.take 3 ++ [0x30] :=
  ⟨⟨rfl, rfl, rfl, rfl⟩, ⟨by decide, _, rfl, rfl⟩, by decide, by decide, by decide⟩
theorem test_witness_FullReadShowsTheDecodedTime :
    presents (0#1 ++ 0x00#8 ++ 7#8) (asked 0x00007 (paced fullAnswers ++ [])) ∧ endsInDone (paced fullAnswers) ∧
      (answers (paced fullAnswers)).map Prod.fst = readStatuses 7 ∧
      ((answers (paced fullAnswers)).map Prod.snd).drop 5 = [0x45, 0x19, 0x22, 0x01, 0x28, 0x02, 0x21] :=
  ⟨⟨rfl, rfl, rfl, rfl⟩, ⟨by decide, _, rfl, rfl⟩, by decide, by decide⟩
theorem test_witness_EncPacksTwoDigits :
    (0 : Byte).toNat ≤ 99 ∧ (99 : Byte).toNat ≤ 99 := by decide
theorem test_witness_EncUndoesDecOnValidBytes :
    (0x99 : Byte).toNat / 16 ≤ 9 ∧ (0x99 : Byte).toNat % 16 ≤ 9 ∧ (99 : Byte).toNat ≤ 99 := by decide
theorem test_witness_DecIsOneToOneOnValidBytesOnly :
    (99 : Nat) ≤ 99 ∧ (0x99 : Byte).toNat / 16 ≤ 9 ∧ (0x99 : Byte).toNat % 16 ≤ 9 ∧ (decByte 0x99).toNat = 99 := by decide
theorem test_witness_ValidBlockDecodesIntoTheRanges :
    blockValid s7 = true ∧ blockValid ⟨0x59, 0x59, 0x23, 0x07, 0x31, 0x12, 0x99⟩ = true ∧
      blockValid ⟨0x00, 0x00, 0x00, 0x01, 0x01, 0x01, 0x00⟩ = true := by decide
theorem test_witness_clockInDomain :
    clockInDomain s7Time ∧ clockInDomain ⟨59, 59, 23, 6, 31, 11, 2099⟩ ∧ clockInDomain ⟨0, 0, 0, 0, 1, 0, 2000⟩ := by
  unfold clockInDomain; decide

theorem test_witness_EnctPacksTheFields :
    clockInDomain s7Time ∧ (79 : Byte).toNat ≤ 79 := ⟨test_witness_clockInDomain.1, by decide⟩
theorem test_witness_BlockFunctionsUndoEachOther :
    clockInDomain s7Time ∧ cleanBlock s7 ∧ blockValid { s7 with b0 := 0xC5 } = true ∧
      clockHalt { s7 with b0 := 0xC5 } = true :=
  ⟨test_witness_clockInDomain.1, ⟨by decide, by decide⟩, by decide, by decide⟩

end Sys2Proof.Tests
end

section
/-! PROOFS. Family 10_state: the values of the registers after reset (10_state.md R39) and the settle timer
(10_state.md R28). -/

namespace Sys2Proof.Machine

/-- Settles O6: `State.reset` writes the values of the table out, and the flags are decided on its `ph`, `act` and
`res_code`. -/
theorem resetRegistersHoldTheTableValues : Obligations.ResetRegistersHoldTheTableValues := by
  unfold Obligations.ResetRegistersHoldTheTableValues
  decide

/-- The event `SETTLED` is taken in exactly in the cycle of `P_SETTLE` that finds the timer at 0 (10_state.md R28;
41_phases.md R146). -/
theorem inputEvent_eq_settled_iff {s : State} (hr : s.port.rst = false) :
    inputEvent s = some .settled ↔ s.ph = .pSettle ∧ s.settle = 0 := by
  cases hp : s.ph <;> simp [inputEvent, hr, hp]

/-- What an edge without reset does to the settle timer: it enters `P_SETTLE` and loads, it is in `P_SETTLE` and counts
down as far as 0, or it is outside on both sides and holds (10_state.md R28). -/
theorem Edge.settle_cases {s u : State} (h : Edge s u) (hr : s.port.rst = false) :
    (s.ph ≠ .pSettle ∧ u.ph = .pSettle ∧ u.settle = Config.tSettle) ∨
    (s.ph = .pSettle ∧ u.settle = s.settle - 1) ∨
    (s.ph ≠ .pSettle ∧ u.ph ≠ .pSettle ∧ u.settle = s.settle) := by
  cases h with
  | reset h => simp [hr] at h
  | written _ hp => exact .inl (by simp [hp])
  | settling _ hp => exact .inr (.inl (by simp [hp]))
  | settled _ hp hn => exact .inr (.inl (by simp [hp, hn]))
  | wait _ hp | mismatch _ hp =>
    have hs : s.ph ≠ .pSettle := ((waiting_iff s.ph).1 hp).2
    exact .inr (.inr (by simp [hs]))
  | idleQuiet _ hp | acceptRead _ hp | acceptWrite _ hp | reject _ hp | started _ hp | addressed _ hp
  | regRead _ hp | regWrite _ hp | restarted _ hp | readAddressed _ hp | captured _ hp | readDone _ hp =>
    exact .inr (.inr (by simp [hp]))

/-- Settles O35, from what an edge can do to the timer (`Edge.settle_cases`); the clauses about `P_SETTLE` are its
one countdown, to the predecessor of the timer and from 0 to 0. -/
theorem settleTimerLoadsAndCounts : Obligations.SettleTimerLoadsAndCounts := by
  unfold Obligations.SettleTimerLoadsAndCounts
  intro s t h hr
  have hevent := inputEvent_eq_settled_iff hr
  obtain ⟨u, hu, rfl⟩ := step_cases h
  simp only [endCycle_fields]
  obtain ⟨hs, ht, hload⟩ | ⟨hs, hcount⟩ | ⟨hs, ht, hhold⟩ := hu.settle_cases hr
  · exact ⟨fun _ _ => hload, fun hp => absurd hp hs, fun hp => absurd hp hs, fun _ hq => absurd ht hq, hevent⟩
  · exact ⟨fun hp => absurd hs hp, fun _ _ => hcount, fun _ h0 => by simp [hcount, h0], fun hp => absurd hs hp, hevent⟩
  · exact ⟨fun _ hq => absurd hq ht, fun hp => absurd hp hs, fun hp => absurd hp hs, fun _ _ => hhold, hevent⟩

end Sys2Proof.Machine
end

section
/-! PROOFS. Family 20_memory: the packing of the block ports (20_memory.md R57). -/

namespace Sys2Proof.Machine

/-- Byte `i` of an unpacked word is the slice of the word that starts at bit `8i` (20_memory.md R57). -/
theorem readByte_unpack (w : BitVec 56) (i : Fin 7) : readByte (Block.unpack w) i = w.extractLsb' (8 * i.val) 8 := by
  fin_cases i <;> rfl

/-- The slice of a packed block that starts at bit `8i` is byte `i` of the block: it is that byte of the block
unpacked again (20_memory.md R57). -/
theorem extractLsb'_pack (blk : Block) (i : Fin 7) : blk.pack.extractLsb' (8 * i.val) 8 = readByte blk i := by
  rw [← readByte_unpack, Block.unpack_pack]

/-- `ENCT` always succeeds, and what it does is `driveEnct` (42_bcd_codec.md R186). -/
theorem exec_enct_eq_driveEnct (wc : WallClock) (s : State) : exec (.enct wc) s = .next (driveEnct wc s) := rfl

/-- After `ENCT` the port `blk_out` is the encoded clock, packed; its free nibbles are drawn from `freeCtr`
(42_bcd_codec.md R186; 20_memory.md R57). -/
theorem blkOut_driveEnct (wc : WallClock) (s : State) :
    blkOut (driveEnct wc s) = (encodeClock s.freeCtr wc).pack := by
  simp [blkOut]

/-- Settles O60: both ports are packed blocks, so each clause is `extractLsb'_pack` of the block on the port. -/
theorem packedPortsCarryByteIAtBitsEightI : Obligations.PackedPortsCarryByteIAtBitsEightI := by
  unfold Obligations.PackedPortsCarryByteIAtBitsEightI
  refine ⟨fun s i => extractLsb'_pack s.buf i, fun s => ⟨extractLsb'_pack s.buf 0, extractLsb'_pack s.buf 6⟩,
    fun s wc => ⟨s.freeCtr, driveEnct wc s, exec_enct_eq_driveEnct wc s, fun i => ?_⟩,
    fun s i => extractLsb'_pack s.codec.blkOut i⟩
  rw [blkOut_driveEnct, extractLsb'_pack]

end Sys2Proof.Machine
end

section
/-! PROOFS. Family 30_encoding: the fields of the command word as numbers (30_encoding.md R75 to R77), and the operand
latches they go to when the word is presented to an idle block. -/

namespace Sys2Proof.Machine

/-- The select bit of a command word is its bit 16: it is set from 2^16 upwards (30_encoding.md R75). -/
theorem cmdSelect_eq_one_iff (w : BitVec 17) : w.extractLsb' 16 1 = 1#1 ↔ 2 ^ 16 ≤ w.toNat := by
  rw [← BitVec.toNat_inj, BitVec.extractLsb'_toNat, BitVec.toNat_ofNat, Nat.shiftRight_eq_div_pow]
  omega

/-- The field `ra` of a command word as a number (30_encoding.md R76, R77). -/
theorem toNat_cmdRa (w : BitVec 17) : (w.extractLsb' 8 8).toNat = w.toNat / 2 ^ 8 % 2 ^ 8 := by
  rw [BitVec.extractLsb'_toNat, Nat.shiftRight_eq_div_pow]

/-- The field `arg` of a command word as a number (30_encoding.md R76, R77). -/
theorem toNat_cmdArg (w : BitVec 17) : (w.extractLsb' 0 8).toNat = w.toNat % 2 ^ 8 := by
  rw [BitVec.extractLsb'_toNat, Nat.shiftRight_zero]

/-- Which command words carry a legal count (30_encoding.md R95). -/
theorem legalCount_cmdArg_iff (w : BitVec 17) :
    legalCount (w.extractLsb' 0 8) = true ↔ 1 ≤ w.toNat % 2 ^ 8 ∧ w.toNat % 2 ^ 8 ≤ 7 := by
  rw [legalCount_iff, toNat_cmdArg]

/-- The three bits latched in `cnt` are the whole of a legal count (30_encoding.md R76). -/
theorem toNat_cmdCount {w : BitVec 17} (h : w.toNat % 2 ^ 8 ≤ 7) : (w.extractLsb' 0 3).toNat = w.toNat % 2 ^ 8 := by
  rw [BitVec.extractLsb'_toNat, Nat.shiftRight_zero]
  omega

theorem decodeCmd_of_lt {w : BitVec 17} (h : w.toNat < 2 ^ 16) :
    decodeCmd w = .read (w.extractLsb' 8 8) (w.extractLsb' 0 8) :=
  if_neg (by rw [cmdSelect_eq_one_iff]; omega)

theorem decodeCmd_of_le {w : BitVec 17} (h : 2 ^ 16 ≤ w.toNat) :
    decodeCmd w = .write (w.extractLsb' 8 8) (w.extractLsb' 0 8) :=
  if_pos ((cmdSelect_eq_one_iff w).2 h)

/-- A legal READ presented to an idle block is accepted with `cnt = cmd[2:0]` (30_encoding.md R76). -/
theorem step_of_presents_legalRead {w : BitVec 17} {s : State} (h : presents w s) (hw : w.toNat < 2 ^ 16)
    (hl : legalCount (w.extractLsb' 0 8) = true) :
    step s = .next (endCycle (accept .read (w.extractLsb' 8 8) (w.extractLsb' 0 3) 0 s)) := by
  obtain ⟨hp, hr, hc, rfl⟩ := h
  have hcnt : (s.port.cmd.extractLsb' 0 8).extractLsb' 0 3 = s.port.cmd.extractLsb' 0 3 :=
    BitVec.extractLsb'_extractLsb'_of_le (by decide)
  rw [← hcnt]
  exact (Edge.acceptRead hr hp hc _ _ (decodeCmd_of_lt hw) hl).step

/-- A reserved READ presented to an idle block is rejected (40_transactions.md R118). -/
theorem step_of_presents_reservedRead {w : BitVec 17} {s : State} (h : presents w s) (hw : w.toNat < 2 ^ 16)
    (hl : legalCount (w.extractLsb' 0 8) = false) : step s = .next (endCycle (reject s)) := by
  obtain ⟨hp, hr, hc, rfl⟩ := h
  exact (Edge.reject hr hp hc _ _ (decodeCmd_of_lt hw) hl).step

/-- A WRITE presented to an idle block is accepted (30_encoding.md R77). -/
theorem step_of_presents_write {w : BitVec 17} {s : State} (h : presents w s) (hw : 2 ^ 16 ≤ w.toNat) :
    step s = .next (endCycle (accept .write (w.extractLsb' 8 8) 1 (w.extractLsb' 0 8) s)) := by
  obtain ⟨hp, hr, hc, rfl⟩ := h
  exact (Edge.acceptWrite hr hp hc _ _ (decodeCmd_of_le hw)).step

/-- Settles O4: the select bit and the count choose one of three edges (WRITE, legal READ, reserved READ); each has one
clause, which is read off its latches, and its range of words excludes the other two. -/
theorem operandsComeFromTheCommandWord : Obligations.OperandsComeFromTheCommandWord := by
  unfold Obligations.OperandsComeFromTheCommandWord
  intro s w h
  have hra := toNat_cmdRa w
  have hlegal := legalCount_cmdArg_iff w
  obtain hw | hw := Nat.lt_or_ge w.toNat (2 ^ 16)
  · cases hl : legalCount (w.extractLsb' 0 8) with
    | true =>
      have hcount := hlegal.1 hl
      refine ⟨_, step_of_presents_legalRead h hw hl, fun _ _ _ => ?_, fun _ _ => by omega, fun _ => by omega⟩
      have hcnt := toNat_cmdCount hcount.2
      have hra : (w.extractLsb' 8 8).toNat = w.toNat / 2 ^ 8 := by omega
      simp only [endCycle_fields, accept_fields, hra, hcnt, and_self]
    | false =>
      refine ⟨_, step_of_presents_reservedRead h hw hl, fun _ h1 h7 => ?_, fun _ _ => by simp, fun _ => by omega⟩
      exact absurd (hlegal.2 ⟨h1, h7⟩) (by simp [hl])
  · refine ⟨_, step_of_presents_write h hw, fun _ => by omega, fun _ => by omega, fun _ => ?_⟩
    simp only [endCycle_fields, accept_fields, hra, toNat_cmdArg, and_self]

end Sys2Proof.Machine
end

section
/-! PROOFS. Family 40_transactions: a reserved READ (40_transactions.md R118), a command that meets a busy block (R119),
and a phase that is never answered (R122). -/

namespace Sys2Proof.Machine

/-- A reserved READ that meets an idle block is rejected, before anything is latched (40_transactions.md R118). -/
theorem exec_read_of_reserved {s : State} {n : Byte} (ra : Byte) (hp : s.ph = .idle) (hl : legalCount n = false) :
    exec (.read ra n) s = .next (reject s) := by
  simp only [exec, execRead, hp, if_true, acceptRead, hl, Bool.false_eq_true, if_false]

theorem legalCount_eq_false {n : Byte} (h : n.toNat = 0 ∨ 8 ≤ n.toNat) : legalCount n = false := by
  rw [← Bool.not_eq_true, legalCount_iff]
  omega

/-- Settles O9: the step is `reject`, whose frame is its definition and whose result makes `done`. -/
theorem reservedReadIsRejected : Obligations.ReservedReadIsRejected := by
  unfold Obligations.ReservedReadIsRejected
  intro s ra n hp hn
  have hexec := exec_read_of_reserved ra hp (legalCount_eq_false hn)
  exact ⟨reject s, hexec, rfl, hp, rfl, by simp [done, hp]⟩

theorem exec_read_of_busy {s : State} (ra n : Byte) (hp : s.ph ≠ .idle) : exec (.read ra n) s = .next s := by
  simp only [exec, execRead, hp, if_false]

theorem exec_write_of_busy {s : State} (ra v : Byte) (hp : s.ph ≠ .idle) : exec (.write ra v) s = .next s := by
  simp only [exec, execWrite, hp, if_false]

/-- Every instruction has a next state: none faults and none is refused (60_exceptions.md R192). -/
theorem exec_eq_next (i : Instr) (s : State) : ∃ u, exec i s = .next u := by
  cases i <;> exact ⟨_, rfl⟩

/-- The cycle that follows an edge inherits of a presented command the word on port `cmd` at most, and that only when
the script has run out: `cmd_valid` falls, and no codec function looks at either port. -/
theorem endCycle_withCommand (s : State) (v : Bool) (w : BitVec 17) :
    endCycle { s with port := { s.port with cmdValid := v, cmd := w } } = { endCycle s with
      port := { (endCycle s).port with
        cmd := (endCycle { s with port := { s.port with cmdValid := v, cmd := w } }).port.cmd } } := by
  cases hs : s.script <;> simp [endCycle, driveCodec, driveDec, driveEnc, driveDect, driveVal, driveEnct, advance,
    nextPort, hush, hs]

/-- The edge of a busy block is the same whatever command is presented (40_transactions.md R119). -/
theorem Edge.withCommand {s u : State} (h : Edge s u) (hp : s.ph ≠ .idle) (v : Bool) (w : BitVec 17) :
    Edge { s with port := { s.port with cmdValid := v, cmd := w } }
      { u with port := { u.port with cmdValid := v, cmd := w } } := by
  rw [h.keeps_ports.1]
  exact h.withPort _ rfl (fun hi => absurd hi hp) (fun _ => ⟨rfl, fun _ => rfl⟩) (fun _ _ => rfl)

/-- A command presented to an idle block is the instruction of the cycle (40_transactions.md R105). -/
theorem fetchedInstr_of_presents {w : BitVec 17} {s : State} (h : presents w s) : fetchedInstr s = decodeCmd w := by
  obtain ⟨hp, -, hc, rfl⟩ := h
  exact if_pos ⟨hp, hc⟩

/-- Settles O11: a busy block takes the same edge under any command (`Edge.withCommand`), and an idle one fetches the
command that is presented. -/
theorem commandWhileBusyHasNoEffect : Obligations.CommandWhileBusyHasNoEffect := by
  unfold Obligations.CommandWhileBusyHasNoEffect
  refine ⟨fun s ra x hp => ⟨exec_read_of_busy ra x hp, exec_write_of_busy ra x hp⟩, fun s v w hp => ?_,
    fun s w h => ?_⟩
  · obtain ⟨u, hedge, hstep⟩ := step_edge s
    exact ⟨_, _, hstep, (hedge.withCommand hp v w).step, endCycle_withCommand u v w⟩
  · obtain ⟨u, hexec⟩ := exec_eq_next (decodeCmd w) s
    have ⟨_, hr, _⟩ := h
    exact ⟨u, hexec, step_of_exec hr (by rw [fetchedInstr_of_presents h, hexec])⟩

/-- Neither a reset nor a completion is on the input ports, or ever will be. -/
def neverAnswered (s : State) : Prop := ∀ p ∈ s.port :: s.script, p.rst = false ∧ p.peDone = false

/-- What is never answered stays so from one cycle to the next: the next input values come from the script, or they
are the present ones without any event. -/
theorem neverAnswered.endCycle {s : State} (h : neverAnswered s) : neverAnswered (endCycle s) := by
  intro p hp
  cases hs : s.script with
  | nil =>
    obtain rfl : p = hush s.port := by simpa [nextPort, hs] using hp
    exact ⟨rfl, rfl⟩
  | cons q l =>
    have hmem : p ∈ q :: l := by simpa [nextPort, hs] using hp
    exact h p (List.mem_cons_of_mem _ (hs ▸ hmem))

/-- An unanswered waiting phase runs for any number of cycles without an action, and phase and result stay as they are
(41_phases.md R125 (2); 40_transactions.md R122). -/
theorem actionRun_of_neverAnswered (k : Nat) : ∀ s : State, waiting s.ph = true → neverAnswered s →
    ∃ t, actionRun k s = some ([], t) ∧ t.ph = s.ph ∧ t.resCode = s.resCode := by
  induction k with
  | zero => exact fun s _ _ => ⟨s, rfl, rfl, rfl⟩
  | succ k ih =>
    intro s hw hn
    obtain ⟨hr, hd⟩ := hn s.port List.mem_cons_self
    have hwait : step s = .next (endCycle (emitNone s)) := (Edge.wait hr hw hd).step
    have hn' : neverAnswered (endCycle (emitNone s)) := neverAnswered.endCycle (s := emitNone s) hn
    obtain ⟨t, hrun, hph, hres⟩ := ih (endCycle (emitNone s)) (by simpa using hw) hn'
    exact ⟨t, by simpa [issued] using actionRun_succ hwait hrun, by simpa using hph, by simpa using hres⟩

/-- Settles O44: the phase of the run is the waiting one it started in, which makes `busy` 1 and `done` 0. -/
theorem unansweredPhaseWaitsForEver : Obligations.UnansweredPhaseWaitsForEver := by
  unfold Obligations.UnansweredPhaseWaitsForEver
  intro s hw hn k
  obtain ⟨t, hrun, hph, hres⟩ := actionRun_of_neverAnswered k s hw hn
  have hidle : t.ph ≠ .idle := hph ▸ ((waiting_iff s.ph).1 hw).1
  exact ⟨t, hrun, hph, hres, by simp [busy, hidle], by simp [done, hidle]⟩

end Sys2Proof.Machine
end

section
/-! PROOFS. Family 41_phases: what a completion does in each waiting phase (41_phases.md R132 to R142), the settle
delay (R146), a completion that no phase waits for (R148) and the order of the events at an edge (R152). -/

namespace Sys2Proof.Machine

/-- A waiting phase while it runs, as the choice of its three parts (41_phases.md R125). -/
theorem awaitDone_of_ph {p : Phase} {s : State} (hp : s.ph = p) (e : Byte) (tag : Tag) (n : BitVec 3)
    (work : State → State) :
    awaitDone p e tag n work s =
      if s.port.peDone = true then if s.port.peStatus = e then work s else abort tag n s.port.peStatus s
      else emitNone s :=
  if_pos hp

/-- Settles O13: the three parts of the waiting phase, `emitTx` and `abort` written out as record updates. -/
theorem phaseStart : Obligations.PhaseStart := by
  unfold Obligations.PhaseStart
  exact fun s hp => congrArg Host.Outcome.next (awaitDone_of_ph hp _ _ _ _)

/-- Settles O14: as `phaseStart`, with the latched register address as the byte. -/
theorem phaseAddressWrite : Obligations.PhaseAddressWrite := by
  unfold Obligations.PhaseAddressWrite
  exact fun s hp => congrArg Host.Outcome.next (awaitDone_of_ph hp _ _ _ _)

/-- Settles O15: the three parts of the waiting phase; the work parts READ and WRITE by the latched operation. -/
theorem phaseRegister : Obligations.PhaseRegister := by
  unfold Obligations.PhaseRegister
  intro s hp
  refine congrArg Host.Outcome.next ((awaitDone_of_ph hp _ _ _ _).trans ?_)
  refine if_congr Iff.rfl (if_congr Iff.rfl ?_ rfl) rfl
  cases s.op with
  | read => rfl
  | write => rfl

/-- Settles O16: the three parts of the waiting phase; the one status it expects is `ST_RSTART`. -/
theorem phaseRepeatedStart : Obligations.PhaseRepeatedStart := by
  unfold Obligations.PhaseRepeatedStart
  exact fun s hp => congrArg Host.Outcome.next (awaitDone_of_ph hp _ _ _ _)

/-- Settles O17: the three parts of the waiting phase; the choice between RXN and RXA is the action it emits. -/
theorem phaseAddressRead : Obligations.PhaseAddressRead := by
  unfold Obligations.PhaseAddressRead
  exact fun s hp => congrArg Host.Outcome.next (awaitDone_of_ph hp _ _ _ _)

theorem lastByte_iff (s : State) : lastByte s = true ↔ s.idx.toNat + 1 = s.cnt.toNat := decide_eq_true_iff

theorem nextIsLast_iff (s : State) : nextIsLast s = true ↔ s.idx.toNat + 2 = s.cnt.toNat := decide_eq_true_iff

/-- A byte written at an index is the one read there, and the only one changed (10_state.md R25). -/
theorem readByte_writeByte_toNat (blk : Block) (i : BitVec 3) (d : Byte) (j : Fin 7) :
    readByte (writeByte blk i d) j = if i.toNat = j.val then d else readByte blk j := by
  have hi : i = BitVec.ofNat 3 j.val ↔ i.toNat = j.val := by
    rw [← BitVec.toNat_inj, BitVec.toNat_ofNat, Nat.mod_eq_of_lt (by omega)]
  simp only [readByte_writeByte, hi]

/-- Settles O18: whether the byte in flight is the last decides which status is expected and what the work is; on
either side the other row of the statement cannot apply. -/
theorem phaseReceiveData : Obligations.PhaseReceiveData := by
  unfold Obligations.PhaseReceiveData
  refine fun s hp => ⟨congrArg Host.Outcome.next ((awaitDone_of_ph hp _ _ _ _).trans ?_), readByte_writeByte_toNat⟩
  by_cases hl : s.idx.toNat + 1 = s.cnt.toNat
  · simp only [lastByte_iff, hl, if_true, true_and, ne_eq, not_true, false_and, if_false]
    rfl
  · simp only [lastByte_iff, nextIsLast_iff, hl, if_false, false_and, ne_eq, not_false_eq_true, true_and]
    rfl

/-- Settles O19: the three parts of the waiting phase; the work issues STOP and writes no result. -/
theorem phaseWriteData : Obligations.PhaseWriteData := by
  unfold Obligations.PhaseWriteData
  exact fun s hp => congrArg Host.Outcome.next (awaitDone_of_ph hp _ _ _ _)

/-- Outside `IDLE` the instruction of the cycle is the row of the phase (41_phases.md R152 (3), (4)). -/
theorem fetchedInstr_of_busy {s : State} (hp : s.ph ≠ .idle) : fetchedInstr s = phaseInstr s.ph :=
  if_neg fun h => hp h.1

/-- Outside `IDLE` an edge without reset runs the row of the phase (41_phases.md R152 (3), (4)). -/
theorem step_runs_phaseInstr {s : State} (hr : s.port.rst = false) (hp : s.ph ≠ .idle) :
    ∃ u, exec (phaseInstr s.ph) s = .next u ∧ step s = .next (endCycle u) := by
  obtain ⟨u, hexec⟩ := exec_eq_next (phaseInstr s.ph) s
  exact ⟨u, hexec, step_of_exec hr (by rw [fetchedInstr_of_busy hp, hexec])⟩

/-- A command that an idle block is presented with runs at the edge (41_phases.md R152 (2)). -/
theorem step_runs_command {s : State} (hr : s.port.rst = false) (hp : s.ph = .idle) (hc : s.port.cmdValid = true) :
    ∃ u, exec (decodeCmd s.port.cmd) s = .next u ∧ step s = .next (endCycle u) := by
  obtain ⟨u, hexec⟩ := exec_eq_next (decodeCmd s.port.cmd) s
  exact ⟨u, hexec, step_of_exec hr (by rw [fetchedInstr_of_presents ⟨hp, hr, hc, rfl⟩, hexec])⟩

/-- Settles O27: reset, command, completion, settle and the two quiet edges, one after another; the outputs are
functions of registers, so the ports do not reach them. -/
theorem oneThingHappensAtEachEdge : Obligations.OneThingHappensAtEachEdge := by
  unfold Obligations.OneThingHappensAtEachEdge
  refine ⟨fun s => ⟨step_of_rst, step_runs_command, fun hr hw _ => ?_, fun hr hp => ?_, fun hr hp hc => ?_,
    fun hr hw hd => ?_⟩, fun s p => ⟨rfl, rfl, rfl, rfl, rfl, rfl, rfl⟩⟩
  · exact step_runs_phaseInstr hr ((waiting_iff s.ph).1 hw).1
  · simpa only [hp, phaseInstr] using step_runs_phaseInstr hr (by simp [hp])
  · exact (Edge.idleQuiet hr hp hc).step
  · exact (Edge.wait hr hw hd).step

/-- The cycle that follows an edge inherits of a completion the two held data values at most, and those only when the
script has run out: `pe_done` falls, and no codec function looks at these ports. -/
theorem endCycle_withCompletion (s : State) (dn : Bool) (st d : Byte) :
    endCycle { s with port := { s.port with peDone := dn, peStatus := st, peRxdata := d } } = { endCycle s with
      port := { (endCycle s).port with
        peStatus :=
          (endCycle { s with port := { s.port with peDone := dn, peStatus := st, peRxdata := d } }).port.peStatus
        peRxdata :=
          (endCycle { s with port := { s.port with peDone := dn, peStatus := st, peRxdata := d } }).port.peRxdata } }
    := by
  cases hs : s.script <;> simp [endCycle, driveCodec, driveDec, driveEnc, driveDect, driveVal, driveEnct, advance,
    nextPort, hush, hs]

/-- The edge of a block that waits for no completion is the same whatever stands on the completion ports
(41_phases.md R148). -/
theorem Edge.withCompletion {s u : State} (h : Edge s u) (hp : s.ph = .idle ∨ s.ph = .pSettle) (dn : Bool)
    (st d : Byte) :
    Edge { s with port := { s.port with peDone := dn, peStatus := st, peRxdata := d } }
      { u with port := { u.port with peDone := dn, peStatus := st, peRxdata := d } } := by
  have hw : ¬ waiting s.ph = true := by rcases hp with hp | hp <;> simp [hp, waiting]
  have hx : s.ph ≠ .pRxdata := by rcases hp with hp | hp <;> simp [hp]
  rw [h.keeps_ports.1]
  exact h.withPort _ rfl (fun _ => ⟨rfl, rfl⟩) (fun hw' => absurd hw' hw) (fun hx' => absurd hx' hx)

/-- Without a command, a block that waits for no completion issues no action (41_phases.md R146, R148, R152 (5)). -/
theorem Edge.act_eq_noAct {s u : State} (h : Edge s u) (hp : s.ph = .idle ∨ s.ph = .pSettle)
    (hc : s.port.cmdValid = false) : u.act = .noAct := by
  cases h with
  | reset | idleQuiet | reject | wait | mismatch | settling | settled => rfl
  | acceptRead _ _ hc' | acceptWrite _ _ hc' => simp [hc] at hc'
  | started _ hp' | addressed _ hp' | regRead _ hp' | regWrite _ hp' | restarted _ hp' | readAddressed _ hp'
  | captured _ hp' | readDone _ hp' | written _ hp' => simp [hp'] at hp

/-- Settles O28: both steps take the same edge (`Edge.withCompletion`), and the cycles that follow it differ in the two
held data values alone. -/
theorem strayCompletionIsIgnored : Obligations.StrayCompletionIsIgnored := by
  unfold Obligations.StrayCompletionIsIgnored
  intro s dn st d hp
  obtain ⟨u, hedge, hstep⟩ := step_edge s
  refine ⟨_, _, hstep, (hedge.withCompletion hp dn st d).step, endCycle_withCompletion u dn st d, fun hc => ?_⟩
  simp [issued, hedge.act_eq_noAct hp hc]

/-- No reset stands on the input ports in this cycle and the `k - 1` that follow it. -/
def resetFree (k : Nat) (s : State) : Prop := ∀ p ∈ (s.port :: s.script).take k, p.rst = false

theorem resetFree.rst_eq_false {k : Nat} {s : State} (h : resetFree (k + 1) s) : s.port.rst = false :=
  h s.port (by simp)

/-- An edge uses up one cycle of the stretch without reset: the next input values come from the script, or they are
the present ones without any event. -/
theorem Edge.resetFree_endCycle {s u : State} {k : Nat} (h : Edge s u) (hf : resetFree (k + 1) s) :
    resetFree k (endCycle u) := by
  obtain ⟨-, hscript, -⟩ := h.keeps_ports
  intro p hp
  simp only [endCycle_fields, h.nextPort_eq, hscript] at hp
  cases hs : s.script with
  | nil =>
    obtain rfl : p = hush s.port := by simpa [nextPort, hs] using List.mem_of_mem_take hp
    rfl
  | cons q l => exact hf p (List.mem_cons_of_mem _ (by simpa [nextPort, hs] using hp))

/-- While the settle timer has not run out, `P_SETTLE` counts it down one a cycle and does nothing else that shows
(41_phases.md R146). -/
theorem actionRun_settling (k j : Nat) : ∀ s : State, s.ph = .pSettle → j ≤ s.settle → resetFree (j + k) s →
    ∃ t, actionRun j s = some ([], t) ∧ t.ph = .pSettle ∧ t.settle = s.settle - j ∧ t.resCode = s.resCode ∧
      resetFree k t := by
  induction j with
  | zero => exact fun s hp _ hf => ⟨s, rfl, hp, rfl, rfl, by simpa using hf⟩
  | succ j ih =>
    intro s hp hj hf
    rw [Nat.add_right_comm] at hf
    have hedge := Edge.settling hf.rst_eq_false hp (by omega)
    obtain ⟨t, hrun, hph, hsettle, hres, hfree⟩ :=
      ih _ (by simpa using hp) (by simp only [endCycle_fields, emitNone_fields]; omega) (hedge.resetFree_endCycle hf)
    refine ⟨t, by simpa [issued] using actionRun_succ hedge.step hrun, hph, ?_, by simpa using hres, hfree⟩
    simp only [hsettle, endCycle_fields, emitNone_fields]
    omega

/-- Settles O45: the countdown reaches 0 after `settle` cycles (`actionRun_settling`), and the cycle that finds it
there ends the WRITE. -/
theorem settleDelayTakesOneCycleMoreThanTheTimer : Obligations.SettleDelayTakesOneCycleMoreThanTheTimer := by
  unfold Obligations.SettleDelayTakesOneCycleMoreThanTheTimer
  intro s hp hf
  refine ⟨fun j hj => ?_, ?_⟩
  · have hfree : resetFree (j + (s.settle + 1 - j)) s := by rwa [Nat.add_sub_cancel' (by omega)]
    obtain ⟨t, hrun, hph, hsettle, hres, -⟩ := actionRun_settling _ j s hp hj hfree
    exact ⟨t, hrun, hph, hsettle, hres⟩
  · obtain ⟨t, hrun, hph, hsettle, -, hfree⟩ := actionRun_settling 1 s.settle s hp le_rfl hf
    have h0 : t.settle = 0 := by omega
    have hlast : actionRun 1 t = some ([], endCycle (emitNone (succeed t))) := by
      simpa [issued] using actionRun_succ (Edge.settled hfree.rst_eq_false hph h0).step (k := 0) rfl
    exact ⟨_, actionRun_add hrun hlast, by simp, by simp, by simp [h0]⟩

end Sys2Proof.Machine
end

section
/-! PROOFS. Family 42_bcd_codec: what `DEC`, `ENC` and `DECT` drive, digit by digit (42_bcd_codec.md R162, R166, R174,
R178). -/

namespace Sys2Proof.Machine

/-- `DEC` always succeeds, and what it does is `driveDec` (42_bcd_codec.md R162). -/
theorem exec_dec_eq_driveDec (b : Byte) (s : State) : exec (.dec b) s = .next (driveDec b s) := rfl

/-- `ENC` always succeeds, and what it does is `driveEnc` (42_bcd_codec.md R166). -/
theorem exec_enc_eq_driveEnc (v : Byte) (s : State) : exec (.enc v) s = .next (driveEnc v s) := rfl

/-- `DECT` always succeeds, and what it does is `driveDect` (42_bcd_codec.md R178). -/
theorem exec_dect_eq_driveDect (blk : Block) (s : State) : exec (.dect blk) s = .next (driveDect blk s) := rfl

/-- `DEC` by the digits of the byte as a number (42_bcd_codec.md R162). -/
theorem decByte_eq_ofNat (b : Byte) : decByte b = BitVec.ofNat 8 (b.toNat / 16 * 10 + b.toNat % 16) := by
  rw [decByte, tens_eq, units_eq]

/-- Settles O51: both digits are at most 15, and `decByte_eq_ofNat` gives the byte that `driveDec` puts on `dec_out`. -/
theorem decGivesTensTimesTenPlusUnits : Obligations.DecGivesTensTimesTenPlusUnits := by
  unfold Obligations.DecGivesTensTimesTenPlusUnits
  intro s b
  have hb := b.isLt
  refine ⟨by omega, ?_⟩
  rw [exec_dec_eq_driveDec, driveDec, decByte_eq_ofNat]

/-- Settles O52: the high nibble of `encByte` is the tens digit inside the domain and the drawn free value outside. -/
theorem encPacksTwoDigits : Obligations.EncPacksTwoDigits := by
  unfold Obligations.EncPacksTwoDigits
  exact fun s v => ⟨if v.toNat ≤ 99 then BitVec.ofNat 4 (v.toNat / 10) else Config.freeNibble s.freeCtr,
    driveEnc v s, exec_enc_eq_driveEnc v s, fun hv => if_pos hv, rfl⟩

/-- A decoded byte less 1 modulo 2^8, as a sum with 255 (42_bcd_codec.md R178). -/
theorem decByte_sub_one (b : Byte) :
    decByte b - 1 = BitVec.ofNat 8 (b.toNat / 16 * 10 + b.toNat % 16 + 255) := by
  have hneg : -(1 : Byte) = 255#8 := by decide
  rw [BitVec.ofNat_add, ← decByte_eq_ofNat, BitVec.sub_eq_add_neg, hneg]

/-- The seconds are decoded from the byte without its clock-halt bit (42_bcd_codec.md R174). -/
theorem decByte_maskSeconds (b : Byte) :
    decByte (maskSeconds b) = BitVec.ofNat 8 (b.toNat % 128 / 16 * 10 + b.toNat % 16) := by
  rw [decByte_eq_ofNat, maskSeconds_toNat, Nat.mod_mod_of_dvd _ (by decide)]

/-- Settles O55 field by field: the masked seconds, the two fields less 1, the year from 2000, the others as `DEC`
gives them. -/
theorem dectDecodesTheBlock : Obligations.DectDecodesTheBlock := by
  unfold Obligations.DectDecodesTheBlock
  intro s blk
  rw [exec_dect_eq_driveDect, driveDect, decodeBlock, decByte_maskSeconds, decByte_sub_one, decByte_sub_one,
    decByte_toNat, century]
  simp only [decByte_eq_ofNat]

end Sys2Proof.Machine
end

section
/-! PROOFS. Family 60_exceptions: the one exception, PhaseMismatch (60_exceptions.md R191 to R193), and how the block
leaves the failed state (R200). -/

namespace Sys2Proof.Machine

/-- A waiting phase that sees a mismatch aborts, whatever its work is (41_phases.md R125; 60_exceptions.md R193). -/
theorem awaitDone_of_mismatch {p : Phase} {s : State} {e : Byte} (hm : mismatch s) (hp : s.ph = p)
    (he : expectedStatus s = some e) (tag : Tag) (n : BitVec 3) (work : State → State) :
    awaitDone p e tag n work s = abort tag n s.port.peStatus s := by
  obtain ⟨hd, e', he', hs⟩ := hm
  obtain rfl : e' = e := Option.some.inj (he'.symm.trans he)
  rw [awaitDone_of_ph hp, if_pos hd, if_neg hs]

/-- On a mismatch the row of the phase is the abort with that phase's tag and byte number (60_exceptions.md R191,
R193). -/
theorem exec_of_mismatch {s : State} (hm : mismatch s) :
    exec (phaseInstr s.ph) s =
      .next (abort (tagOfPhase s.ph) (if s.ph = .pRxdata then s.idx else 0) s.port.peStatus s) := by
  have hw := mismatch_waiting hm
  cases hp : s.ph with
  | idle | pSettle => cases hp ▸ hw
  | pStart | pSlaw | pReg | pRstart | pSlar | pWdata =>
    exact congrArg Host.Outcome.next (awaitDone_of_mismatch hm hp (by simp [expectedStatus, hp]) _ _ _)
  | pRxdata =>
    exact congrArg Host.Outcome.next (awaitDone_of_mismatch hm hp (by simp [expectedStatus, hp, lastByte_iff]) _ _ _)

/-- Settles O23: the row of the phase is `abort`, whose frame is its definition. -/
theorem mismatchAborts : Obligations.MismatchAborts := by
  unfold Obligations.MismatchAborts
  exact fun s hm => ⟨_, exec_of_mismatch hm, rfl, rfl, by simp [done], by simp [busy]⟩

/-- Every phase that waits has a failure tag of its own: not "no tag", and not the tag of STOP, which is never
produced (60_exceptions.md R191; 10_state.md R30). -/
theorem tagOfPhase_of_waiting {p : Phase} (h : waiting p = true) :
    tagOfPhase p ≠ .noTag ∧ tagOfPhase p ≠ .stop := by
  cases p with
  | idle | pSettle => cases h
  | pStart | pSlaw | pReg | pRstart | pSlar | pRxdata | pWdata => simp [tagOfPhase]

/-- An edge that ends in FAIL saw a mismatch, or held a FAIL that was there (60_exceptions.md R192). -/
theorem Edge.mismatch_or_resCode_eq_fail {s u : State} (h : Edge s u) (hf : u.resCode = .fail) :
    Machine.mismatch s ∨ s.resCode = .fail := by
  cases h with
  | mismatch _ _ hm => exact .inl hm
  | reset | acceptRead | acceptWrite | reject | readDone | settled => simp at hf
  | idleQuiet | wait | started | addressed | regRead | regWrite | restarted | readAddressed | captured | written
  | settling => exact .inr (by simpa using hf)

/-- A step without reset that sees a mismatch is the abort of the phase (60_exceptions.md R193). -/
theorem step_of_mismatch {s : State} (hr : s.port.rst = false) (hm : mismatch s) :
    step s = .next (endCycle (abort (tagOfPhase s.ph) (if s.ph = .pRxdata then s.idx else 0) s.port.peStatus s)) :=
  (Edge.mismatch hr (mismatch_waiting hm) hm).step

/-- While a transaction runs, no result stands in `res_code` (10_state.md R40). -/
theorem LegalState.resCode_of_busy {s : State} (h : LegalState s) (hp : s.ph ≠ .idle) : s.resCode = .noResult :=
  not_not.1 fun hres => hp (h.result_only_idle hres)

/-- Settles O24: FAIL comes from a mismatch or was there before (`Edge.mismatch_or_resCode_eq_fail`); the
first cannot be in `IDLE`, the second cannot be outside it. A mismatch in turn is the abort (`step_of_mismatch`). -/
theorem failureExactlyOnMismatch : Obligations.FailureExactlyOnMismatch := by
  unfold Obligations.FailureExactlyOnMismatch
  intro s t hs hstep hr
  have habort (hm : mismatch s) :
      t = endCycle (abort (tagOfPhase s.ph) (if s.ph = .pRxdata then s.idx else 0) s.port.peStatus s) := by
    simpa [step_of_mismatch hr hm, eq_comm] using hstep
  have hcause (hf : t.resCode = .fail) : mismatch s ∨ s.resCode = .fail := by
    obtain ⟨u, hedge, rfl⟩ := step_cases hstep
    exact hedge.mismatch_or_resCode_eq_fail (by simpa using hf)
  refine ⟨fun hp hf => (hcause hf).resolve_left fun hm => ?_,
    fun hp => ⟨fun hf => (hcause hf).resolve_right ?_, fun hm => by simp [habort hm]⟩, fun hm => ?_⟩
  · exact ((waiting_iff s.ph).1 (mismatch_waiting hm)).1 hp
  · simp [hs.resCode_of_busy hp]
  · have htag := tagOfPhase_of_waiting (mismatch_waiting hm)
    simp [habort hm, htag]

/-- Any legal command presented to an idle block is accepted (40_transactions.md R106, R112). -/
theorem step_of_presents_wellFormed {w : BitVec 17} {s : State} (h : presents w s)
    (hl : (decodeCmd w).wellFormed = true) :
    ∃ op ra cnt wd, step s = .next (endCycle (accept op ra cnt wd s)) := by
  obtain hw | hw := Nat.lt_or_ge w.toNat (2 ^ 16)
  · rw [decodeCmd_of_lt hw] at hl
    exact ⟨_, _, _, _, step_of_presents_legalRead h hw hl⟩
  · exact ⟨_, _, _, _, step_of_presents_write h hw⟩

/-- Any command presented to an idle block that is not legal is rejected: only a READ can be (40_transactions.md
R118; 30_encoding.md R95). -/
theorem step_of_presents_notWellFormed {w : BitVec 17} {s : State} (h : presents w s)
    (hl : (decodeCmd w).wellFormed = false) : step s = .next (endCycle (reject s)) := by
  obtain hw | hw := Nat.lt_or_ge w.toNat (2 ^ 16)
  · rw [decodeCmd_of_lt hw] at hl
    exact step_of_presents_reservedRead h hw hl
  · rw [decodeCmd_of_le hw] at hl
    cases hl

/-- Settles O25: the three clauses are the edges of acceptance, of rejection and of a quiet `IDLE`, and what each
leaves in the result registers. -/
theorem nextLegalCommandLeavesTheFailedState : Obligations.NextLegalCommandLeavesTheFailedState := by
  unfold Obligations.NextLegalCommandLeavesTheFailedState
  refine ⟨fun s w h hl => ?_, fun s w h hl => ?_, fun s hp hr hc => ?_⟩
  · obtain ⟨op, ra, cnt, wd, hstep⟩ := step_of_presents_wellFormed h hl
    exact ⟨_, hstep, by simp [issued]⟩
  · have ⟨hp, _⟩ := h
    exact ⟨_, step_of_presents_notWellFormed h hl, by simp [issued, hp]⟩
  · exact ⟨_, (Edge.idleQuiet hr hp hc).step, by simp [issued, hp]⟩

end Sys2Proof.Machine
end

section
/-! PROOFS. Family 70_reset_and_hazards: the edge with `rst = 1` (70_reset_and_hazards.md R220). The beginning of the
next cycle (`endCycle`) keeps every register, so what that edge leaves is what the step leaves. -/

namespace Sys2Proof.Machine

/-- The outputs after an edge with `rst = 1`: no action, so no STOP, and a block that is ready with no result
(70_reset_and_hazards.md R220). -/
theorem outputs_endCycle_resetEdge (s : State) :
    issued (endCycle (resetEdge s)) = none ∧ cmdReady (endCycle (resetEdge s)) = true ∧
      busy (endCycle (resetEdge s)) = false ∧ done (endCycle (resetEdge s)) = false := by
  simp [issued, cmdReady, busy, done]

/-- Settles O7: the step is `resetEdge` (`step_of_rst`), whose values the next cycle holds; the outputs follow from
`ph`, `act` and `res_code`. -/
theorem resetEdgeClearsAllButTheBuffer : Obligations.ResetEdgeClearsAllButTheBuffer := by
  unfold Obligations.ResetEdgeClearsAllButTheBuffer
  intro s hr
  exact ⟨_, step_of_rst hr, by simp [outputs_endCycle_resetEdge]⟩

end Sys2Proof.Machine
end

section
/-! PROOFS. Family other, the encoding (30_encoding.md 1 to 4): both round trips, words written out, and the address
byte. -/

namespace Sys2Proof

/-- Decoding undoes encoding, for every constructor and every operand (30_encoding.md R75 to R80). -/
theorem decode_encode (i : Instr) : decode (encode i) = .ok i := by
  cases i with
  | read ra n => exact Laws.RoundTrip.read ra n
  | write ra v => exact Laws.RoundTrip.write ra v
  | dect blk => exact Laws.RoundTrip.dect blk
  | val blk => exact Laws.RoundTrip.val blk
  | enct wc => exact Laws.RoundTrip.enct wc
  | idle | pStart | pSlaw | pReg | pRstart | pSlar | pRxdata | pWdata | pSettle => rfl
  | actNone | actStart | actTx _ | actRxa | actRxn | actStop | dec _ | enc _ => rfl

/-- Settles O2: the round trip of each constructor (`decode_encode`). -/
theorem everyInstructionRoundTrips : Obligations.EveryInstructionRoundTrips := by
  unfold Obligations.EveryInstructionRoundTrips
  exact decode_encode

/-- Encoding undoes decoding on command words: the select bit chooses the constructor, and the three fields laid side
by side are the word (30_encoding.md R75 to R77). -/
theorem encode_decodeCmd (w : BitVec 17) : encode (decodeCmd w) = .cmd w := by
  have hfields := cmd_eq_fields w
  unfold decodeCmd
  split
  next hb => rw [encode, ← hb, hfields]
  next hb =>
    have hb0 : w.extractLsb' 16 1 = 0#1 := (BitVec.eq_zero_or_eq_one _).resolve_right hb
    rw [encode, ← hb0, hfields]

/-- A phase code in use decodes, and encodes back (30_encoding.md R80). -/
theorem decode_phaseCode_of_le {c : BitVec 4} (h : c.toNat ≤ 8) :
    ∃ i, decode (.phase c) = .ok i ∧ encode i = .phase c := by
  have hc : c = 0 ∨ c = 1 ∨ c = 2 ∨ c = 3 ∨ c = 4 ∨ c = 5 ∨ c = 6 ∨ c = 7 ∨ c = 8 := by revert c; decide
  rcases hc with rfl | rfl | rfl | rfl | rfl | rfl | rfl | rfl | rfl <;> exact ⟨_, rfl, rfl⟩

/-- A phase code above 8 is rejected by name (30_encoding.md R80, R96). -/
theorem decode_phaseCode_of_ge {c : BitVec 4} (h : 9 ≤ c.toNat) : decode (.phase c) = .error (.reservedPhase c) := by
  revert c; decide

/-- An action code in use decodes, and encodes back with the byte where the action carries one (30_encoding.md R79). -/
theorem decode_actCode_of_le {c : BitVec 3} (h : c.toNat ≤ 5) (d : Byte) :
    ∃ i, decode (.act c d) = .ok i ∧ encode i = .act c (if c = 2 then d else 0) := by
  have hc : c = 0 ∨ c = 1 ∨ c = 2 ∨ c = 3 ∨ c = 4 ∨ c = 5 := by revert c; decide
  rcases hc with rfl | rfl | rfl | rfl | rfl | rfl <;> exact ⟨_, rfl, rfl⟩

/-- An action code above 5 is rejected by name (30_encoding.md R79, R96). -/
theorem decode_actCode_of_ge {c : BitVec 3} (h : 6 ≤ c.toNat) (d : Byte) :
    decode (.act c d) = .error (.reservedAction c) := by
  have hc : c = 6 ∨ c = 7 := by revert c; decide
  rcases hc with rfl | rfl <;> rfl

/-- Settles O3, port by port: the packings of the wide words are inverse to their unpackings, and the codes of the two
narrow ports are run through. -/
theorem everyWordHasOneMeaning : Obligations.EveryWordHasOneMeaning := by
  unfold Obligations.EveryWordHasOneMeaning
  exact ⟨fun w => ⟨decodeCmd w, rfl, encode_decodeCmd w⟩, fun _ => ⟨rfl, rfl⟩, fun _ => ⟨rfl, rfl⟩,
    fun w => ⟨.dect (Block.unpack w), rfl, congrArg _ (Block.pack_unpack w)⟩,
    fun w => ⟨.val (Block.unpack w), rfl, congrArg _ (Block.pack_unpack w)⟩,
    fun w => ⟨.enct (WallClock.unpack w), rfl, congrArg _ (WallClock.pack_unpack w)⟩,
    fun _ => decode_phaseCode_of_le, fun _ => decode_phaseCode_of_ge,
    fun _ d h => decode_actCode_of_le h d, fun _ d h => decode_actCode_of_ge h d⟩

/-- Settles O1: each word is the encoding of the instruction the tables name, so `decode_encode` reads it back. -/
theorem commandAndPhaseWordsDecode : Obligations.CommandAndPhaseWordsDecode := by
  unfold Obligations.CommandAndPhaseWordsDecode
  exact ⟨decode_encode (.read 0x00 7), decode_encode (.read 0x02 1), decode_encode (.read 0xFF 7),
    decode_encode (.write 0x00 0x45), decode_encode (.write 0x02 0x22), decode_encode (.write 0xFF 0x00),
    decode_encode .pRxdata, decode_encode (.actTx 0xD0), decode_encode (.dec 0x59)⟩

namespace Machine

/-- The address byte is its two fields (30_encoding.md R83). -/
theorem addressByte_fields (dir : BitVec 1) :
    (addressByte dir).extractLsb' 1 7 = devAddr ∧ (addressByte dir).extractLsb' 0 1 = dir := by
  revert dir; decide

/-- Settles O5: the two fields of the address byte, and the two constants evaluated. -/
theorem addressBytesAndDirection : Obligations.AddressBytesAndDirection := by
  unfold Obligations.AddressBytesAndDirection
  exact ⟨addressByte_fields, rfl, rfl, rfl, rfl, rfl, rfl⟩

end Machine

end Sys2Proof
end

section
/-! PROOFS. Family other, the invariant (10_state.md R40): it holds after reset, every edge keeps it, and so it holds
in every state that a run from reset reaches. The codec's outputs follow their inputs after every step (R36). -/

namespace Sys2Proof.Machine

/-- In `IDLE` the invariant asks only for the bounds of `idx` and of the timer, and that a tag belongs to a FAIL
(10_state.md R40). -/
theorem legalState_of_idle {s : State} (hp : s.ph = .idle) (hi : s.idx.toNat ≤ 6) (hsettle : s.settle = 0)
    (hfail : s.resTag ≠ .noTag → s.resCode = .fail) (hstop : s.resTag ≠ .stop) : LegalState s where
  idx_le_six := hi
  cnt_legal := .inl hp
  rxdata_in_range h := by simp [hp] at h
  read_phases h := by simp [hp] at h
  write_phases h := by simp [hp] at h
  idx_zero h := absurd hp h
  write_cnt h := absurd hp h
  result_only_idle _ := hp
  tag_only_fail := hfail
  tag_never_stop := hstop
  settle_zero _ := hsettle
  settle_bounded := by simp [hsettle]

/-- Settles O41: the reset state is idle, with every register the invariant speaks of at 0. -/
theorem resetMeetsTheInvariant : Obligations.ResetMeetsTheInvariant := by
  unfold Obligations.ResetMeetsTheInvariant
  exact fun _ _ _ => legalState_of_idle rfl (Nat.zero_le 6) rfl (fun h => absurd rfl h) (fun h => nomatch h)

/-- The invariant does not look at the engine port. -/
theorem LegalState.emit {s : State} (h : LegalState s) (a : Act) : LegalState (emit a s) := { h with }

theorem LegalState.emitTx {s : State} (h : LegalState s) (d : Byte) : LegalState (emitTx d s) := { h with }

theorem LegalState.emitNone {s : State} (h : LegalState s) : LegalState (emitNone s) := h.emit .noAct

/-- The invariant does not look at the ports either: the next cycle keeps it. -/
theorem LegalState.endCycle {s : State} (h : LegalState s) : LegalState (endCycle s) := by
  obtain ⟨_, _, _, _, _, _, _, _, _, _, _, _⟩ := h
  constructor <;> simpa

/-- While a transaction runs, no tag stands in `res_tag`: it would need a FAIL (10_state.md R40). -/
theorem LegalState.resTag_of_busy {s : State} (h : LegalState s) (hp : s.ph ≠ .idle) : s.resTag = .noTag := by
  by_contra ht
  have hf := h.tag_only_fail ht
  rw [h.resCode_of_busy hp] at hf
  cases hf

/-- A transaction that has not yet reached its data goes on to a later phase of its own operation: the invariant holds
there, because `idx` is still 0 and `cnt` is legal (10_state.md R27, R40). -/
theorem LegalState.enterPhase {s : State} (h : LegalState s) {q p : Phase} (hq : s.ph = q) (hw : waiting q = true)
    (hx : q ≠ .pRxdata) (hp : waiting p = true) (hr : p = .pRstart ∨ p = .pSlar ∨ p = .pRxdata → s.op = .read)
    (hwr : p = .pWdata → s.op = .write) : LegalState { s with ph := p } := by
  subst hq
  rw [waiting_iff] at hw hp
  have hidx : s.idx = 0 := h.idx_zero hw.1 hx
  have hcnt : 1 ≤ s.cnt.toNat := h.cnt_legal.resolve_left hw.1
  have hres : s.resCode = .noResult := h.resCode_of_busy hw.1
  exact { h with
    cnt_legal := .inr hcnt
    rxdata_in_range := fun hq => ⟨hr (.inr (.inr hq)), by rw [hidx]; exact hcnt⟩
    read_phases := fun hq => hr (hq.imp_right .inl)
    write_phases := fun hq => hwr (hq.resolve_right hp.2)
    idx_zero := fun _ _ => hidx
    write_cnt := fun _ => h.write_cnt hw.1
    result_only_idle := fun hq => absurd hres hq
    settle_zero := fun _ => h.settle_zero hw.2 }

/-- Acceptance starts a transaction that meets the invariant, if its count is legal and a WRITE's is 1
(40_transactions.md R106, R112). -/
theorem LegalState.accept {s : State} (h : LegalState s) (hp : s.ph = .idle) {op : Op} {cnt : BitVec 3}
    (hc : 1 ≤ cnt.toNat) (hw : op = .write → cnt = 1) (ra wd : Byte) : LegalState (accept op ra cnt wd s) where
  idx_le_six := by simp
  cnt_legal := .inr hc
  rxdata_in_range h := by simp at h
  read_phases h := by simp at h
  write_phases h := by simp at h
  idx_zero _ _ := rfl
  write_cnt _ := hw
  result_only_idle h := by simp at h
  tag_only_fail h := by simp at h
  tag_never_stop := by simp
  settle_zero _ := h.settle_zero (by simp [hp])
  settle_bounded := h.settle_bounded

/-- A byte that is not the last leaves `idx` below `cnt` when it moves on (41_phases.md R140). -/
theorem LegalState.captureNext {s : State} (h : LegalState s) (hp : s.ph = .pRxdata) (hl : lastByte s = false) :
    LegalState { capture s with idx := s.idx + 1 } := by
  obtain ⟨hop, hlt⟩ := h.rxdata_in_range hp
  have hcnt := s.cnt.isLt
  have hnext : (s.idx + 1).toNat < s.cnt.toNat := by
    have hne : ¬ s.idx.toNat + 1 = s.cnt.toNat := by simp [← lastByte_iff, hl]
    rw [BitVec.toNat_add_of_lt (by simp; omega)]
    simp; omega
  have hsix : (s.idx + 1).toNat ≤ 6 := by omega
  exact { h with
    idx_le_six := hsix
    rxdata_in_range := fun _ => ⟨hop, hnext⟩
    idx_zero := fun _ hx => absurd hp hx }

/-- Every edge keeps the invariant (10_state.md R40): the edges into `IDLE` end the transaction, the others go on to the
next phase of its operation. -/
theorem Edge.legalState {s u : State} (h : Edge s u) (hs : LegalState s) : LegalState u := by
  cases h with
  | reset => exact legalState_of_idle rfl (by simp) rfl (by simp) (by simp)
  | idleQuiet | wait => exact hs.emitNone
  | acceptRead _ hp _ ra n _ hl =>
    refine hs.accept hp ?_ (by simp) ra 0
    have hn := (legalCount_iff n).1 hl
    rw [BitVec.extractLsb'_toNat, Nat.shiftRight_zero]
    omega
  | acceptWrite _ hp _ ra v => exact hs.accept hp (by decide) (fun _ => rfl) ra v
  | reject _ hp =>
    exact legalState_of_idle hp hs.idx_le_six (hs.settle_zero (by simp [hp])) (by simp) (by simp)
  | mismatch _ hp =>
    exact legalState_of_idle rfl hs.idx_le_six (hs.settle_zero ((waiting_iff _).1 hp).2) (fun _ => rfl)
      (tagOfPhase_of_waiting hp).2
  | started _ hp | addressed _ hp =>
    exact (hs.enterPhase hp rfl (by simp) rfl (by simp) (by simp)).emitTx _
  | regRead _ hp _ _ ho =>
    exact (hs.enterPhase hp rfl (by simp) rfl (fun _ => ho) (by simp)).emit _
  | regWrite _ hp _ _ ho =>
    exact (hs.enterPhase hp rfl (by simp) rfl (by simp) (fun _ => ho)).emitTx _
  | restarted _ hp =>
    exact (hs.enterPhase hp rfl (by simp) rfl (fun _ => hs.read_phases (.inl hp)) (by simp)).emitTx _
  | readAddressed _ hp =>
    exact (hs.enterPhase hp rfl (by simp) rfl (fun _ => hs.read_phases (.inr hp)) (by simp)).emit _
  | captured _ hp _ hl => exact (hs.captureNext hp hl).emit _
  | readDone _ hp =>
    have htag := hs.resTag_of_busy (by simp [hp])
    exact legalState_of_idle rfl hs.idx_le_six (hs.settle_zero (by simp [hp])) (by simp [htag]) (by simp [htag])
  | written _ hp =>
    exact { hs with
      cnt_legal := .inr (hs.cnt_legal.resolve_left (by simp [hp]))
      rxdata_in_range := by simp
      read_phases := by simp
      write_phases := fun _ => hs.write_phases (.inl hp)
      idx_zero := fun _ _ => hs.idx_zero (by simp [hp]) (by simp [hp])
      write_cnt := fun _ => hs.write_cnt (by simp [hp])
      result_only_idle := by simp [hs.resCode_of_busy, hp]
      settle_zero := by simp
      settle_bounded := le_rfl }
  | settling _ hp =>
    exact { hs with
      settle_zero := fun h => absurd hp h
      settle_bounded := (Nat.sub_le _ _).trans hs.settle_bounded }
  | settled _ hp hn =>
    have htag := hs.resTag_of_busy (by simp [hp])
    exact legalState_of_idle rfl hs.idx_le_six hn (by simp [htag]) (by simp [htag])

/-- Settles O42: the edge of the step keeps the invariant (`Edge.legalState`), and the next cycle does. -/
theorem stepKeepsTheInvariant : Obligations.StepKeepsTheInvariant := by
  unfold Obligations.StepKeepsTheInvariant
  intro s t hs hstep
  obtain ⟨u, hedge, rfl⟩ := step_cases hstep
  exact (hedge.legalState hs).endCycle

/-- What every step keeps, a run keeps. -/
theorem gatherRun_keeps {α : Type} {f : State → State → List α} {P : State → Prop}
    (hstep : ∀ s t, P s → step s = .next t → P t) (k : Nat) : ∀ {s u : State} {xs : List α}, P s →
    gatherRun f k s = some (xs, u) → P u := by
  induction k with
  | zero =>
    intro s u xs hs h
    obtain ⟨-, rfl⟩ : [] = xs ∧ s = u := by simpa [gatherRun] using h
    exact hs
  | succ k ih =>
    intro s u xs hs h
    obtain ⟨t, ys, ht, hrun, -⟩ := gatherRun_succ_cases h
    exact ih (hstep s t hs ht) hrun

theorem phaseCode_le_eight (p : Phase) : (phaseCode p).toNat ≤ 8 := by cases p <;> decide

theorem tagCode_ne_zero_iff (g : Tag) : (tagCode g).toNat ≠ 0 ↔ g ≠ .noTag := by cases g <;> decide

theorem tagCode_ne_seven_iff (g : Tag) : (tagCode g).toNat ≠ 7 ↔ g ≠ .stop := by cases g <;> decide

/-- Settles O43: the invariant holds at reset and every step keeps it (`gatherRun_keeps`); the seven clauses are read
off it. -/
theorem reachableStatesMeetTheSevenClauses : Obligations.ReachableStatesMeetTheSevenClauses := by
  unfold Obligations.ReachableStatesMeetTheSevenClauses
  intro p l b k as t hrun
  have ht : LegalState t := gatherRun_keeps stepKeepsTheInvariant k (resetMeetsTheInvariant p l b) hrun
  have hcnt : t.cnt.toNat ≤ 7 := Nat.le_of_lt_succ t.cnt.isLt
  refine ⟨phaseCode_le_eight t.ph, ht.cnt_legal.imp_right fun h => ⟨h, hcnt⟩, ht.rxdata_in_range, ?_,
    ht.write_phases, ht.result_only_idle, fun h => ht.tag_only_fail ((tagCode_ne_zero_iff _).1 h),
    (tagCode_ne_seven_iff _).2 ht.tag_never_stop⟩
  rintro (h | h | h)
  · exact ht.read_phases (.inl h)
  · exact ht.read_phases (.inr h)
  · exact (ht.rxdata_in_range h).1

/-- The nibbles of `ENC` (42_bcd_codec.md R166). -/
theorem encByte_nibbles (hi : BitVec 4) (v : Byte) :
    (encByte hi v).extractLsb' 0 4 = BitVec.ofNat 4 (v.toNat % 10) ∧
      (v.toNat ≤ 99 → (encByte hi v).extractLsb' 4 4 = BitVec.ofNat 4 (v.toNat / 10)) := by
  refine ⟨(BitVec.extractLsb'_append_eq_of_add_le (by decide)).trans BitVec.extractLsb'_eq_self, fun hv => ?_⟩
  rw [encByte, if_pos hv]
  exact (BitVec.extractLsb'_append_eq_of_le (by decide)).trans BitVec.extractLsb'_eq_self

/-- The end of every cycle drives all outputs anew from the ports and `buf` (10_state.md R36). -/
theorem codecFollows_endCycle (u : State) : CodecFollows (endCycle u) where
  dec := by simp
  enc_low := by simpa using (encByte_nibbles _ _).1
  enc_high := by simpa using (encByte_nibbles _ _).2
  blk := ⟨u.freeCtr + 1, by simp⟩
  time := by simp
  flags := by simp
  valid := by simp
  halt := by simp

/-- Settles O40: at reset the outputs are evaluated (no operand of `ENC` is above 99 there), and every step ends with
`endCycle`. -/
theorem outputsFollowBufferAndPorts : Obligations.OutputsFollowBufferAndPorts := by
  unfold Obligations.OutputsFollowBufferAndPorts
  refine ⟨⟨by decide, by decide, by decide, ⟨0, rfl⟩, by decide, by decide, by decide, by decide⟩, fun s t h => ?_⟩
  obtain ⟨u, -, rfl⟩ := step_cases h
  exact codecFollows_endCycle u

end Sys2Proof.Machine
end

section
/-! PROOFS. Family other, one instruction at a time: acceptance (40_transactions.md R106, R112), a quiet `IDLE` (R105),
`P_SETTLE` (41_phases.md R146), the actions (R130), a phase that is not selected (log 11), and how a step is made of
instructions (30_encoding.md R100). -/

namespace Sys2Proof.Machine

/-- The three bits of a count as a number modulo 8 (30_encoding.md R76). -/
theorem extractLsb'_count (n : Byte) : n.extractLsb' 0 3 = BitVec.ofNat 3 n.toNat := by
  apply BitVec.eq_of_toNat_eq
  rw [BitVec.extractLsb'_toNat, BitVec.toNat_ofNat, Nat.shiftRight_zero]

/-- A legal READ that meets an idle block is accepted (40_transactions.md R106). -/
theorem exec_read_of_legal {s : State} {n : Byte} (ra : Byte) (hp : s.ph = .idle) (hl : legalCount n = true) :
    exec (.read ra n) s = .next (accept .read ra (n.extractLsb' 0 3) 0 s) := by
  simp only [exec, execRead, hp, if_true, acceptRead, hl]

/-- A WRITE that meets an idle block is accepted (40_transactions.md R112). -/
theorem exec_write_of_idle {s : State} (ra v : Byte) (hp : s.ph = .idle) :
    exec (.write ra v) s = .next (accept .write ra 1 v s) :=
  congrArg Host.Outcome.next (if_pos hp)

/-- Settles O8: the count is legal, and `accept` is the record update of the statement. -/
theorem legalReadIsAccepted : Obligations.LegalReadIsAccepted := by
  unfold Obligations.LegalReadIsAccepted
  intro s ra n hp h1 h7
  rw [exec_read_of_legal ra hp ((legalCount_iff n).2 ⟨h1, h7⟩), extractLsb'_count]
  rfl

/-- Settles O10: `accept` is the record update of the statement. -/
theorem writeIsAccepted : Obligations.WriteIsAccepted := by
  unfold Obligations.WriteIsAccepted
  exact fun s ra v hp => exec_write_of_idle ra v hp

/-- In `IDLE` the row of `IDLE` waits for a command, or is the command presented (40_transactions.md R105). -/
theorem exec_idle_of_idle {s : State} (hp : s.ph = .idle) :
    exec .idle s = if s.port.cmdValid then exec (decodeCmd s.port.cmd) s else .next (emitNone s) := by
  cases hc : s.port.cmdValid with
  | false => simp [exec, execIdle, hp, hc]
  | true =>
    by_cases hb : s.port.cmd.extractLsb' 16 1 = 1#1
    · simp [exec, execIdle, execWrite, decodeCmd, hp, hc, hb]
    · simp [exec, execIdle, execRead, decodeCmd, hp, hc, hb]

/-- Settles O12: the two sides of `exec_idle_of_idle`. -/
theorem idleWithoutCommandOnlyClearsAct : Obligations.IdleWithoutCommandOnlyClearsAct := by
  unfold Obligations.IdleWithoutCommandOnlyClearsAct
  refine ⟨fun s hp hc => ?_, fun s hp hc => ?_⟩
  · rw [exec_idle_of_idle hp, hc]
    rfl
  · rw [exec_idle_of_idle hp, hc, if_pos rfl]

/-- Settles O20: `P_SETTLE` runs, and its two outcomes are record updates. -/
theorem settleCycleCountsOrEnds : Obligations.SettleCycleCountsOrEnds := by
  unfold Obligations.SettleCycleCountsOrEnds
  exact fun s hp => congrArg Host.Outcome.next (if_pos hp)

/-- A waiting phase that `ph` does not name leaves the state as it is (log 11). -/
theorem awaitDone_of_ph_ne {p : Phase} {s : State} (hp : s.ph ≠ p) (e : Byte) (tag : Tag) (n : BitVec 3)
    (work : State → State) : awaitDone p e tag n work s = s :=
  if_neg hp

/-- Settles O21: each row begins with the comparison of `ph` with its own phase, the waiting ones in `awaitDone`. -/
theorem phaseRowRunsOnlyInItsPhase : Obligations.PhaseRowRunsOnlyInItsPhase := by
  unfold Obligations.PhaseRowRunsOnlyInItsPhase
  intro p s hp
  cases p with
  | idle | pSettle => exact congrArg Host.Outcome.next (if_neg hp)
  | pStart | pSlaw | pReg | pRstart | pSlar | pRxdata | pWdata =>
    exact congrArg Host.Outcome.next (awaitDone_of_ph_ne hp _ _ _ _)

/-- The engine port while the register `act` holds `a` (10_state.md R26, R35). -/
theorem enginePort_eq {s : State} {a : Act} (h : s.act = a) :
    peReq s = decide (a ≠ .noAct) ∧ peAction s = actCode a := by
  subst h
  exact ⟨rfl, rfl⟩

/-- Settles O22: each action is an `emit`, and the engine port shows the action emitted. -/
theorem actionsAreIssuedOnTheEnginePort : Obligations.ActionsAreIssuedOnTheEnginePort := by
  unfold Obligations.ActionsAreIssuedOnTheEnginePort
  exact fun s d => ⟨⟨emitNone s, rfl, rfl, enginePort_eq (a := .noAct) rfl⟩,
    ⟨emit .start s, rfl, rfl, enginePort_eq (a := .start) rfl⟩,
    ⟨emitTx d s, rfl, rfl, (enginePort_eq (a := .tx) rfl).1, (enginePort_eq (a := .tx) rfl).2, rfl⟩,
    ⟨emit .rxa s, rfl, rfl, enginePort_eq (a := .rxa) rfl⟩,
    ⟨emit .rxn s, rfl, rfl, enginePort_eq (a := .rxn) rfl⟩,
    ⟨emit .stop s, rfl, rfl, enginePort_eq (a := .stop) rfl⟩⟩

/-- Settles O38: the word that stands where the next instruction stands decodes to `fetchedInstr`, and a step is exec of
that (`step_of_exec`). -/
theorem stepRunsTheDecodedInstruction : Obligations.StepRunsTheDecodedInstruction := by
  unfold Obligations.StepRunsTheDecodedInstruction
  refine ⟨fun s u i hr hi hx => ?_, fun s => ⟨_, decode_fetchWord s⟩, fun s hp hc => if_pos ⟨hp, hc⟩,
    fun s h => if_neg ?_⟩
  · obtain rfl : fetchedInstr s = i := by simpa [decode_fetchWord] using hi
    exact step_of_exec hr hx
  · rintro ⟨hp, hc⟩
    rcases h with h | h
    · exact h hp
    · simp [h] at hc

/-- `VAL` always succeeds, and what it does is `driveVal` (42_bcd_codec.md R182). -/
theorem exec_val_eq_driveVal (blk : Block) (s : State) : exec (.val blk) s = .next (driveVal blk s) := rfl

/-- The end of a cycle changes no register (30_encoding.md R100). -/
theorem endCycle_eq (u : State) : endCycle u = { u with
    port := nextPort u, script := u.script.tail, codec := (endCycle u).codec, freeCtr := (endCycle u).freeCtr } := by
  simp [endCycle, driveCodec, driveDec, driveEnc, driveDect, driveVal, driveEnct, advance]

/-- The end of a cycle as the five codec functions one after another on the ports of the next cycle (30_encoding.md
R100). -/
theorem endCycle_eq_drives (u : State) :
    endCycle u = driveEnct (nextPort u).wc (driveVal u.buf (driveDect u.buf (driveEnc (nextPort u).encIn
      (driveDec (nextPort u).decIn (advance u))))) := by
  simp [endCycle, driveCodec]

/-- Settles O39: each codec instruction is the drive of its outputs, and the five in a row are `endCycle`. -/
theorem codecFunctionsRunInEveryCycle : Obligations.CodecFunctionsRunInEveryCycle := by
  unfold Obligations.CodecFunctionsRunInEveryCycle
  exact fun u => ⟨_, _, _, _, exec_dec_eq_driveDec _ _, exec_enc_eq_driveEnc _ _, exec_dect_eq_driveDect _ _,
    exec_val_eq_driveVal _ _, (exec_enct_eq_driveEnct _ _).trans (congrArg _ (endCycle_eq_drives u).symm),
    endCycle_eq u⟩

end Sys2Proof.Machine
end

section
/-! PROOFS. Family other, the codec (42_bcd_codec.md 2 to 6): digits both ways, the constraint flags, and the round
trips of the block functions. -/

namespace Sys2Proof.Machine

/-- Settles O53: the two round trips of a byte, run through the output ports, and a count of the 256 bytes. -/
theorem encUndoesDecOnValidBytes : Obligations.EncUndoesDecOnValidBytes := by
  unfold Obligations.EncUndoesDecOnValidBytes
  refine ⟨fun s b ht hu => ⟨_, _, exec_dec_eq_driveDec b s, exec_enc_eq_driveEnc _ _, ?_⟩,
    fun s v hv => ⟨_, _, exec_enc_eq_driveEnc v s, exec_dec_eq_driveDec _ _, ?_⟩, rfl⟩
  · simpa using encByte_decByte _ b ht hu
  · simpa using decByte_encByte _ v hv

/-- A valid byte is the one that `ENC` gives for its decoded value (42_bcd_codec.md R164). -/
theorem decByte_injective_of_valid {b c : Byte} (hb : b.toNat / 16 ≤ 9 ∧ b.toNat % 16 ≤ 9)
    (hc : c.toNat / 16 ≤ 9 ∧ c.toNat % 16 ≤ 9) (h : decByte b = decByte c) : b = c := by
  rw [← encByte_decByte 0 b hb.1 hb.2, h, encByte_decByte 0 c hc.1 hc.2]

/-- `ENC` makes valid bytes out of its domain (42_bcd_codec.md R166). -/
theorem encByte_digits (hi : BitVec 4) {v : Byte} (hv : v.toNat ≤ 99) :
    (encByte hi v).toNat / 16 = v.toNat / 10 ∧ (encByte hi v).toNat % 16 = v.toNat % 10 := by
  rw [encByte_toNat, if_pos hv]
  omega

/-- Settles O54: `ENC v` is the valid byte that decodes to `v`, and the only one; the formula `decByte_toNat` holds for
every byte. -/
theorem decIsOneToOneOnValidBytesOnly : Obligations.DecIsOneToOneOnValidBytesOnly := by
  unfold Obligations.DecIsOneToOneOnValidBytesOnly
  refine ⟨fun v hv => ?_, fun b ht hu => ?_, decByte_toNat, by decide, by decide, by decide, by decide, by decide⟩
  · have hval : (BitVec.ofNat 8 v).toNat = v := by rw [BitVec.toNat_ofNat]; omega
    obtain ⟨ht, hu⟩ := encByte_digits 0 (v := BitVec.ofNat 8 v) (by omega)
    have hdec : decByte (encByte 0 (BitVec.ofNat 8 v)) = BitVec.ofNat 8 v := decByte_encByte 0 _ (by omega)
    refine ⟨encByte 0 (BitVec.ofNat 8 v), ⟨by omega, by omega, by rw [hdec, hval]⟩, fun c hct hcu hc => ?_⟩
    refine decByte_injective_of_valid ⟨hct, hcu⟩ ⟨by omega, by omega⟩ ?_
    rw [hdec, ← hc, BitVec.ofNat_toNat, BitVec.setWidth_eq]
  · rw [decByte_toNat]
    omega

/-- `t_valid` is 1 exactly when the seven bits of `t_fv` are (42_bcd_codec.md R183). -/
theorem blockValid_iff_getLsbD (blk : Block) :
    blockValid blk = true ↔ ∀ i, i < 7 → (fieldValid blk).getLsbD i = true := by
  obtain ⟨h0, h1, h2, h3, h4, h5, h6⟩ := fieldValid_bits blk
  rw [blockValid_iff]
  simp only [← h0, ← h1, ← h2, ← h3, ← h4, ← h5, ← h6]
  refine ⟨fun ⟨_, _, _, _, _, _, _⟩ i hi => ?_, fun h => ⟨h 0 (by decide), h 1 (by decide), h 2 (by decide),
    h 3 (by decide), h 4 (by decide), h 5 (by decide), h 6 (by decide)⟩⟩
  interval_cases i <;> assumption

/-- Settles O56: `VAL` is `driveVal`; its bits are the seven flags (`fieldValid_bits`), each with its limits. -/
theorem valReportsTheConstraintFlags : Obligations.ValReportsTheConstraintFlags := by
  unfold Obligations.ValReportsTheConstraintFlags
  intro s blk
  obtain ⟨h0, h1, h2, h3, h4, h5, h6⟩ := fieldValid_bits blk
  refine ⟨driveVal blk s, exec_val_eq_driveVal blk s, rfl, ?_⟩
  simp only [driveVal_fields, h0, h1, h2, h3, h4, h5, h6]
  exact ⟨secondsOk_iff _, minutesOk_iff _, hoursOk_iff _, weekdayOk_iff _, dayOk_iff _, monthOk_iff _, yearOk_iff _,
    blockValid_iff_getLsbD blk, clockHalt_iff blk⟩

/-- The limits of the seven fields of a valid block, as numbers (42_bcd_codec.md R182). -/
theorem blockValid_limits {blk : Block} (h : blockValid blk = true) :
    (blk.b0.toNat % 16 ≤ 9 ∧ blk.b0.toNat % 128 / 16 ≤ 5) ∧ (blk.b1.toNat % 16 ≤ 9 ∧ blk.b1.toNat / 16 ≤ 5) ∧
    (blk.b2.toNat % 16 ≤ 9 ∧ blk.b2.toNat / 16 ≤ 2 ∧ blk.b2.toNat / 16 * 10 + blk.b2.toNat % 16 ≤ 23) ∧
    (blk.b3.toNat / 16 = 0 ∧ 1 ≤ blk.b3.toNat % 16 ∧ blk.b3.toNat % 16 ≤ 7) ∧
    (blk.b4.toNat % 16 ≤ 9 ∧ blk.b4.toNat / 16 ≤ 9 ∧ 1 ≤ blk.b4.toNat / 16 * 10 + blk.b4.toNat % 16 ∧
      blk.b4.toNat / 16 * 10 + blk.b4.toNat % 16 ≤ 31) ∧
    (blk.b5.toNat % 16 ≤ 9 ∧ blk.b5.toNat / 16 ≤ 9 ∧ 1 ≤ blk.b5.toNat / 16 * 10 + blk.b5.toNat % 16 ∧
      blk.b5.toNat / 16 * 10 + blk.b5.toNat % 16 ≤ 12) ∧
    (blk.b6.toNat % 16 ≤ 9 ∧ blk.b6.toNat / 16 ≤ 9) := by
  simpa only [secondsOk_iff, minutesOk_iff, hoursOk_iff, weekdayOk_iff, dayOk_iff, monthOk_iff, yearOk_iff] using
    (blockValid_iff blk).1 h

/-- A byte that decodes to 1 or more loses 1 without wrap (42_bcd_codec.md R178). -/
theorem toNat_decByte_sub_one {b : Byte} (h : 1 ≤ b.toNat / 16 * 10 + b.toNat % 16) :
    (decByte b - 1).toNat = b.toNat / 16 * 10 + b.toNat % 16 - 1 := by
  have hb := b.isLt
  rw [decByte_sub_one, BitVec.toNat_ofNat]
  omega

/-- The decoded year never wraps (42_bcd_codec.md R178). -/
theorem toNat_decodeBlock_year (blk : Block) :
    (decodeBlock blk).year.toNat = 2000 + (blk.b6.toNat / 16 * 10 + blk.b6.toNat % 16) := by
  have hb := blk.b6.isLt
  rw [decodeBlock, century, decByte_toNat, BitVec.toNat_ofNat]
  omega

/-- A valid block decodes into the domain of `ENCT` (42_bcd_codec.md R183). -/
theorem clockInDomain_decodeBlock {blk : Block} (h : blockValid blk = true) : clockInDomain (decodeBlock blk) := by
  obtain ⟨h0, h1, h2, h3, h4, h5, h6⟩ := blockValid_limits h
  unfold clockInDomain
  rw [toNat_decodeBlock_year]
  simp only [decodeBlock, decByte_toNat, maskSeconds_toNat]
  rw [toNat_decByte_sub_one (by omega), toNat_decByte_sub_one (by omega)]
  omega

/-- Settles O57: the flags are the bits of `t_fv`, and their limits bound the decoded fields. -/
theorem validBlockDecodesIntoTheRanges : Obligations.ValidBlockDecodesIntoTheRanges := by
  unfold Obligations.ValidBlockDecodesIntoTheRanges
  exact fun blk => ⟨blockValid_iff_getLsbD blk, clockInDomain_decodeBlock⟩

/-- The operand of `ENC` for the year: the year less 2000, as a byte (42_bcd_codec.md R186). -/
theorem yearOperand_eq (y : BitVec 12) :
    (y - BitVec.ofNat 12 century).setWidth 8 = BitVec.ofNat 8 ((y - 2000).toNat) := by
  apply BitVec.eq_of_toNat_eq
  rw [BitVec.toNat_setWidth, BitVec.toNat_ofNat]
  rfl

/-- A year of the domain less 2000 does not wrap (42_bcd_codec.md R186). -/
theorem toNat_year_sub {y : BitVec 12} (h : 2000 ≤ y.toNat) : (y - 2000).toNat = y.toNat - 2000 := by
  bv_omega

/-- A seconds byte that `ENC` gives for 79 at most leaves the clock-halt bit 0 (42_bcd_codec.md R186). -/
theorem toNat_encByte_lt {v : Byte} (hi : BitVec 4) (h : v.toNat ≤ 79) : (encByte hi v).toNat < 128 := by
  rw [encByte_toNat, if_pos (by omega)]
  omega

theorem getLsbD_seven_of_lt {b : Byte} (h : b.toNat < 128) : b.getLsbD 7 = false := by
  rw [BitVec.getLsbD, Nat.testBit_lt_two_pow h]

/-- The two fields that count from 1 on the chip: plus 1 modulo 2^8 (42_bcd_codec.md R186). -/
theorem add_one_eq_ofNat (b : Byte) : b + 1 = BitVec.ofNat 8 (b.toNat + 1) := by
  rw [BitVec.ofNat_add, BitVec.ofNat_toNat, BitVec.setWidth_eq]
  rfl

/-- Settles O58: `ENCT` is `driveEnct` with seven free values in a row; its operands are the stated ones, and in the
domain none exceeds 99. -/
theorem enctPacksTheFields : Obligations.EnctPacksTheFields := by
  unfold Obligations.EnctPacksTheFields
  refine fun s wc => ⟨⟨fun i => Config.freeNibble (s.freeCtr + i.val), driveEnct wc s, exec_enct_eq_driveEnct wc s, ?_⟩,
    fun h => ?_, fun hi h => getLsbD_seven_of_lt (toNat_encByte_lt hi h)⟩
  · rw [← yearOperand_eq, ← add_one_eq_ofNat, ← add_one_eq_ofNat]
    rfl
  · obtain ⟨hsec, hmin, hhour, hwday, hday1, hday, hmonth, hyear, hyear'⟩ := h
    rw [toNat_year_sub hyear]
    omega

/-- A seconds byte below 0x80 is its own masked value (42_bcd_codec.md R174). -/
theorem maskSeconds_of_lt {b : Byte} (h : b.toNat < 128) : maskSeconds b = b := by
  apply BitVec.eq_of_toNat_eq
  rw [maskSeconds_toNat, Nat.mod_eq_of_lt h]

/-- With the clock-halt bit set, masking takes 0x80 away (42_bcd_codec.md R174). -/
theorem maskSeconds_of_ge {b : Byte} (h : 128 ≤ b.toNat) : maskSeconds b = b - 0x80 := by
  apply BitVec.eq_of_toNat_eq
  rw [maskSeconds_toNat]
  bv_omega

/-- The year goes through its byte and back (42_bcd_codec.md R187). -/
theorem year_decode_encode {y : BitVec 12} (hi : BitVec 4) (h : 2000 ≤ y.toNat) (h' : y.toNat ≤ 2099) :
    BitVec.ofNat 12 (century + (decByte (encByte hi ((y - BitVec.ofNat 12 century).setWidth 8))).toNat) = y := by
  have hval : (BitVec.ofNat 8 ((y - 2000).toNat)).toNat = y.toNat - 2000 := by
    rw [BitVec.toNat_ofNat, toNat_year_sub h]
    omega
  rw [yearOperand_eq, decByte_encByte hi _ (by omega), hval, century, Nat.add_sub_cancel' h, BitVec.ofNat_toNat,
    BitVec.setWidth_eq]

/-- The byte of the year goes through the year and back (42_bcd_codec.md R187). -/
theorem yearOperand_decode (d : Byte) :
    (BitVec.ofNat 12 (century + d.toNat) - BitVec.ofNat 12 century).setWidth 8 = d := by
  rw [BitVec.ofNat_add, BitVec.add_comm, BitVec.add_sub_cancel, BitVec.ofNat_toNat]
  exact (BitVec.setWidth_setWidth_of_le d (by decide)).trans (BitVec.setWidth_eq d)

/-- `DECT` undoes `ENCT` on the domain, whatever the free values (42_bcd_codec.md R187). -/
theorem decodeBlock_encodeClock (k : Nat) {wc : WallClock} (h : clockInDomain wc) :
    decodeBlock (encodeClock k wc) = wc := by
  obtain ⟨hsec, hmin, hhour, hwday, -, hday, hmonth, hyear, hyear'⟩ := h
  have hplus {b : Byte} (hb : b.toNat ≤ 11) : (b + 1).toNat ≤ 99 := by
    rw [add_one_eq_ofNat, BitVec.toNat_ofNat]
    omega
  simp only [decodeBlock, encodeClock, maskSeconds_of_lt (toNat_encByte_lt _ (by omega : wc.second.toNat ≤ 79)),
    decByte_encByte _ _ (by omega : wc.second.toNat ≤ 99), decByte_encByte _ _ (by omega : wc.minute.toNat ≤ 99),
    decByte_encByte _ _ (by omega : wc.hour.toNat ≤ 99), decByte_encByte _ _ (by omega : wc.day.toNat ≤ 99),
    decByte_encByte _ _ (hplus (by omega : wc.weekday.toNat ≤ 11)), decByte_encByte _ _ (hplus hmonth),
    year_decode_encode _ hyear hyear', BitVec.add_sub_cancel]

/-- `ENCT` undoes `DECT` on valid blocks but for the clock-halt bit, whatever the free values (42_bcd_codec.md R187). -/
theorem encodeClock_decodeBlock (k : Nat) {blk : Block} (h : blockValid blk = true) :
    encodeClock k (decodeBlock blk) = { blk with b0 := maskSeconds blk.b0 } := by
  obtain ⟨h0, h1, h2, h3, h4, h5, h6⟩ := blockValid_limits h
  have hmask := maskSeconds_toNat blk.b0
  simp only [encodeClock, decodeBlock, BitVec.sub_add_cancel, yearOperand_decode]
  rw [encByte_decByte _ (maskSeconds blk.b0) (by omega) (by omega), encByte_decByte _ blk.b1 (by omega) (by omega),
    encByte_decByte _ blk.b2 (by omega) (by omega), encByte_decByte _ blk.b3 (by omega) (by omega),
    encByte_decByte _ blk.b4 (by omega) (by omega), encByte_decByte _ blk.b5 (by omega) (by omega),
    encByte_decByte _ blk.b6 (by omega) (by omega)]

/-- `ENCT` makes valid blocks out of its domain (42_bcd_codec.md R187). -/
theorem blockValid_encodeClock (k : Nat) {wc : WallClock} (h : clockInDomain wc) :
    blockValid (encodeClock k wc) = true := by
  obtain ⟨hsec, hmin, hhour, hwday, hday1, hday, hmonth, hyear, hyear'⟩ := h
  have hplus {b : Byte} (hb : b.toNat ≤ 11) : (b + 1).toNat = b.toNat + 1 := by
    rw [add_one_eq_ofNat, BitVec.toNat_ofNat]
    omega
  have hw := hplus (by omega : wc.weekday.toNat ≤ 11)
  have hm := hplus hmonth
  have hy : (BitVec.ofNat 8 ((wc.year - 2000).toNat)).toNat ≤ 99 := by
    rw [BitVec.toNat_ofNat, toNat_year_sub hyear]
    omega
  rw [blockValid_iff, secondsOk_iff, minutesOk_iff, hoursOk_iff, weekdayOk_iff, dayOk_iff, monthOk_iff, yearOk_iff]
  simp only [encodeClock, yearOperand_eq]
  have d0 := encByte_digits (Config.freeNibble k) (by omega : wc.second.toNat ≤ 99)
  have d1 := encByte_digits (Config.freeNibble (k + 1)) (by omega : wc.minute.toNat ≤ 99)
  have d2 := encByte_digits (Config.freeNibble (k + 2)) (by omega : wc.hour.toNat ≤ 99)
  have d3 := encByte_digits (Config.freeNibble (k + 3)) (by omega : (wc.weekday + 1).toNat ≤ 99)
  have d4 := encByte_digits (Config.freeNibble (k + 4)) (by omega : wc.day.toNat ≤ 99)
  have d5 := encByte_digits (Config.freeNibble (k + 5)) (by omega : (wc.month + 1).toNat ≤ 99)
  have d6 := encByte_digits (Config.freeNibble (k + 6)) hy
  omega

/-- Settles O59: the two round trips, the flags of an encoded clock, and what masking does to the seconds byte on
either side of 0x80. -/
theorem blockFunctionsUndoEachOther : Obligations.BlockFunctionsUndoEachOther := by
  unfold Obligations.BlockFunctionsUndoEachOther
  refine ⟨fun k wc h => ⟨decodeBlock_encodeClock k h, blockValid_encodeClock k h, ?_⟩, fun k blk ⟨hv, hch⟩ => ?_,
    fun k blk hv hch => ?_⟩
  · obtain ⟨hsec, -⟩ := h
    exact getLsbD_seven_of_lt (toNat_encByte_lt _ (by omega))
  · rw [← Bool.not_eq_true, clockHalt_iff] at hch
    rw [encodeClock_decodeBlock k hv, maskSeconds_of_lt (by omega)]
  · rw [encodeClock_decodeBlock k hv, maskSeconds_of_ge ((clockHalt_iff blk).1 hch)]

end Sys2Proof.Machine
end

section
/-! PROOFS. Family other, one step: the next-phase table (41_phases.md R150), what is read of a completion (10_state.md
R35), which step issues which action, and what a step leaves in the latches and in `buf`. -/

namespace Sys2Proof.Machine

/-- A step takes one edge only: whichever edge applies is the one that was taken. -/
theorem Edge.endCycle_of_step {s u t : State} (h : Edge s u) (hstep : Machine.step s = .next t) : t = endCycle u := by
  simpa [h.step, eq_comm] using hstep

/-- The action on the engine port does not change when the next cycle begins. -/
@[simp] theorem issued_endCycle (u : State) : issued (endCycle u) = issued u := by
  simp [issued]

/-- A request for the next byte, acknowledged or not, is issued as it is emitted (41_phases.md R139, R140). -/
theorem issued_emit_receive (c : Prop) [Decidable c] (s : State) :
    issued (emit (if c then .rxn else .rxa) s) = some (if c then .rxn else .rxa) := by
  split <;> rfl

/-- A command word laid out as a READ is that READ (30_encoding.md R76). -/
theorem decodeCmd_of_eq_read {w : BitVec 17} {ra n : Byte} (h : w = 0#1 ++ ra ++ n) : decodeCmd w = .read ra n :=
  h ▸ decodeCmd_read ra n

/-- A command word laid out as a WRITE is that WRITE (30_encoding.md R77). -/
theorem decodeCmd_of_eq_write {w : BitVec 17} {ra v : Byte} (h : w = 1#1 ++ ra ++ v) : decodeCmd w = .write ra v :=
  h ▸ decodeCmd_write ra v

/-- Settles O26: each row of the table names the edge that applies, and that edge has the phase and the action the row
states. -/
theorem nextPhaseFollowsTheTable : Obligations.NextPhaseFollowsTheTable := by
  unfold Obligations.NextPhaseFollowsTheTable
  intro s
  obtain ⟨u, -, hstep⟩ := step_edge s
  have row {v : State} (h : Edge s v) : endCycle u = endCycle v := h.endCycle_of_step hstep
  refine ⟨_, hstep, fun hr => ?_, fun hr => ⟨fun hp hc => ?_, fun ra n hp hc hw h1 h7 => ?_, fun ra v hp hc hw => ?_,
    fun ra n hp hc hw hn => ?_, fun hp hd => ?_, fun hp hd hs => ?_, fun hp hd hs => ?_, fun hp hd hs ho => ?_,
    fun hp hd hs ho => ?_, fun hp hd hs => ?_, fun hp hd hs => ?_, fun hp hd hs hl => ?_, fun hp hd hs hl => ?_,
    fun hp hd hs => ?_, fun hp hn => ?_, fun hp hn => ?_, fun hm => ?_⟩⟩
  · simp [row (.reset hr), issued]
  · simp [row (.idleQuiet hr hp hc), hp, issued]
  · have hl : legalCount n = true := (legalCount_iff n).2 ⟨h1, h7⟩
    simp [row (.acceptRead hr hp hc ra n (decodeCmd_of_eq_read hw) hl), issued]
  · simp [row (.acceptWrite hr hp hc ra v (decodeCmd_of_eq_write hw)), issued]
  · simp [row (.reject hr hp hc ra n (decodeCmd_of_eq_read hw) (legalCount_eq_false hn)), hp, issued]
  · simp [row (.wait hr hp hd), issued]
  · simp [row (.started hr hp hd hs), issued]
  · simp [row (.addressed hr hp hd hs), issued]
  · simp [row (.regRead hr hp hd hs ho), issued]
  · simp [row (.regWrite hr hp hd hs ho), issued]
  · simp [row (.restarted hr hp hd hs), issued]
  · simp [row (.readAddressed hr hp hd hs), issued_emit_receive]
  · simp [row (.captured hr hp hd (by simpa [lastByte] using hl) hs), issued_emit_receive, nextIsLast_iff, hp]
  · simp [row (.readDone hr hp hd ((lastByte_iff s).2 hl) hs), issued]
  · simp [row (.written hr hp hd hs), issued]
  · simp [row (.settled hr hp hn), issued]
  · simp [row (.settling hr hp hn), hp, issued]
  · simp [row (.mismatch hr (mismatch_waiting hm) hm), issued]

/-- The cycle that follows an edge inherits of `pe_rxdata` the held value at most, and that only when the script has
run out: no codec function looks at this port. -/
theorem endCycle_withRxdata (s : State) (d : Byte) :
    endCycle { s with port := { s.port with peRxdata := d } } = { endCycle s with
      port := { (endCycle s).port with
        peRxdata := (endCycle { s with port := { s.port with peRxdata := d } }).port.peRxdata } } := by
  cases hs : s.script <;> simp [endCycle, driveCodec, driveDec, driveEnc, driveDect, driveVal, driveEnct, advance,
    nextPort, hush, hs]

/-- Without a completion the edge is the same whatever status and byte stand on the ports (10_state.md R35). -/
theorem Edge.withStatus {s u : State} (h : Edge s u) (hd : s.port.peDone = false) (st d : Byte) :
    Edge { s with port := { s.port with peStatus := st, peRxdata := d } }
      { u with port := { u.port with peStatus := st, peRxdata := d } } := by
  have hno : s.port.peDone ≠ true := by simp [hd]
  rw [h.keeps_ports.1]
  exact h.withPort _ rfl (fun _ => ⟨rfl, rfl⟩) (fun _ => ⟨rfl, fun hd' => absurd hd' hno⟩)
    (fun _ hd' => absurd hd' hno)

/-- Outside `P_RXDATA` the edge is the same whatever byte stands on `pe_rxdata` (10_state.md R35). -/
theorem Edge.withRxdata {s u : State} (h : Edge s u) (hp : s.ph ≠ .pRxdata) (d : Byte) :
    Edge { s with port := { s.port with peRxdata := d } } { u with port := { u.port with peRxdata := d } } := by
  rw [h.keeps_ports.1]
  exact h.withPort _ rfl (fun _ => ⟨rfl, rfl⟩) (fun _ => ⟨rfl, fun _ => rfl⟩) (fun hp' => absurd hp' hp)

/-- Settles O29: both steps take the same edge (`Edge.withStatus`, `Edge.withRxdata`), and the cycles that follow it
differ in the held data values alone. -/
theorem statusIsSampledOnlyAtCompletion : Obligations.StatusIsSampledOnlyAtCompletion := by
  unfold Obligations.StatusIsSampledOnlyAtCompletion
  refine ⟨fun s st d hd => ?_, fun s d hp => ?_⟩
  · obtain ⟨u, hedge, hstep⟩ := step_edge s
    exact ⟨_, _, hstep, (hedge.withStatus hd st d).step, endCycle_withCompletion u u.port.peDone st d⟩
  · obtain ⟨u, hedge, hstep⟩ := step_edge s
    exact ⟨_, _, hstep, (hedge.withRxdata hp d).step, endCycle_withRxdata u d⟩

/-- STOP is issued by the edge that ends a READ and by the one that ends the data of a WRITE (41_phases.md R144). -/
theorem Edge.readDone_or_written_of_issued_stop {s u : State} (h : Edge s u) (hi : issued u = some .stop) :
    s.port.rst = false ∧ s.port.peDone = true ∧
      ((s.ph = .pRxdata ∧ lastByte s = true ∧ s.port.peStatus = stRxdataNack) ∨
        (s.ph = .pWdata ∧ s.port.peStatus = stTxdataAck)) := by
  cases h with
  | readDone hr hp hd hl hs => exact ⟨hr, hd, .inl ⟨hp, hl, hs⟩⟩
  | written hr hp hd hs => exact ⟨hr, hd, .inr ⟨hp, hs⟩⟩
  | readAddressed | captured =>
    rw [issued_emit_receive] at hi
    split at hi <;> cases hi
  | reset | idleQuiet | acceptRead | acceptWrite | reject | wait | mismatch | started | addressed | regRead | regWrite
  | restarted | settling | settled => simp [issued] at hi

/-- Settles O30: an edge that issues STOP is one of two (`Edge.readDone_or_written_of_issued_stop`), and those two issue
it. -/
theorem stopIsIssuedByTwoStepsOnly : Obligations.StopIsIssuedByTwoStepsOnly := by
  unfold Obligations.StopIsIssuedByTwoStepsOnly
  intro s t hstep
  constructor
  · intro hi
    obtain ⟨u, hedge, rfl⟩ := step_cases hstep
    rw [issued_endCycle] at hi
    obtain ⟨hr, hd, ⟨hp, hl, hs⟩ | h⟩ := hedge.readDone_or_written_of_issued_stop hi
    · exact ⟨hr, hd, .inl ⟨hp, (lastByte_iff s).1 hl, hs⟩⟩
    · exact ⟨hr, hd, .inr h⟩
  · rintro ⟨hr, hd, ⟨hp, hl, hs⟩ | ⟨hp, hs⟩⟩
    · simp [(Edge.readDone hr hp hd ((lastByte_iff s).2 hl) hs).endCycle_of_step hstep, issued]
    · simp [(Edge.written hr hp hd hs).endCycle_of_step hstep, issued]

/-- A legal command is taken at the end of this cycle (40_transactions.md R106, R112). -/
def acceptsCommand (s : State) : Prop :=
  s.ph = .idle ∧ s.port.cmdValid = true ∧ (decodeCmd s.port.cmd).wellFormed = true

/-- A completion has come to a waiting phase, with exactly the status it expects (41_phases.md R125). -/
def matched (s : State) : Prop :=
  waiting s.ph = true ∧ s.port.peDone = true ∧ expectedStatus s = some s.port.peStatus

theorem not_matched_of_mismatch {s : State} (h : mismatch s) : ¬ matched s := by
  rintro ⟨-, -, he⟩
  obtain ⟨-, e, he', hne⟩ := h
  exact hne (Option.some.inj (he.symm.trans he'))

/-- An edge without reset that issues an action accepts a legal command or follows the expected completion
(41_phases.md R125, R150). -/
theorem Edge.accepts_or_matched_of_issued {s u : State} (h : Edge s u) (hi : issued u ≠ none) :
    s.port.rst = false ∧ (acceptsCommand s ∨ matched s) := by
  cases h with
  | reset | idleQuiet | reject | wait | mismatch | settling | settled => exact absurd rfl hi
  | acceptRead hr hp hc ra n hw hl => exact ⟨hr, .inl ⟨hp, hc, by simpa [hw, Instr.wellFormed] using hl⟩⟩
  | acceptWrite hr hp hc ra v hw => exact ⟨hr, .inl ⟨hp, hc, by simp [hw, Instr.wellFormed]⟩⟩
  | started hr hp hd hs | addressed hr hp hd hs | regRead hr hp hd hs | regWrite hr hp hd hs | restarted hr hp hd hs
  | readAddressed hr hp hd hs | written hr hp hd hs =>
    exact ⟨hr, .inr ⟨by simp [hp, waiting], hd, by simp [expectedStatus, hp, hs]⟩⟩
  | captured hr hp hd hl hs | readDone hr hp hd hl hs =>
    exact ⟨hr, .inr ⟨by simp [hp, waiting], hd, by simp [expectedStatus, hp, hs, ← lastByte_iff, hl]⟩⟩

/-- A waiting phase that sees its completion asks for the next one exactly if it goes on waiting: after every edge but
that of a wait, the action on the engine port owes a completion if and only if the phase waits (41_phases.md R126). -/
theorem Edge.owesCompletion_eq_waiting {s u : State} (h : Edge s u)
    (hd : waiting s.ph = true → s.port.rst = false → s.port.peDone = true) :
    owesCompletion u.act = waiting u.ph := by
  cases h with
  | wait hr hp hd' => simp [hd hp hr] at hd'
  | idleQuiet _ hp | reject _ hp | settling _ hp => simp [hp, waiting, owesCompletion]
  | readAddressed => simp only [emit_fields]; split <;> rfl
  | captured _ hp => simp only [emit_fields, capture_fields, hp]; split <;> rfl
  | reset | acceptRead | acceptWrite | mismatch | started | addressed | regRead | regWrite | restarted | readDone
  | written | settled => rfl

/-- One action is outstanding while a phase waits, and none otherwise: every cycle keeps this, if the engine keeps its
duty and no reset cancels a transaction (41_phases.md R126; 20_memory.md R62). A wait moves the one action from the port
to the engine; every other edge finds none left once its completion is counted, and the next phase asks anew. -/
theorem outstandingMatches_step {s t : State} {o : Nat} (ho : outstandingMatches o s) (he : engineKeepsDuty o s)
    (hr : s.port.rst = true → waiting s.ph = false) (hstep : step s = .next t) :
    outstandingMatches (outstandingAfter o s) t := by
  unfold outstandingMatches outstandingAfter at *
  by_cases hq : waiting s.ph = true ∧ s.port.peDone = false
  · obtain ⟨hw, hd⟩ := hq
    have hr : s.port.rst = false := by
      by_contra h
      simp [hr (by simpa using h)] at hw
    obtain rfl := (Edge.wait hr hw hd).endCycle_of_step hstep
    simpa [owesCompletion, hd] using ho
  · have hdone (hw : waiting s.ph = true) : s.port.peDone = true := by simpa [hw] using hq
    have hnone : o - s.port.peDone.toNat + (owesCompletion s.act).toNat = 0 := by
      cases hw : waiting s.ph with
      | false =>
        rw [hw, Bool.toNat_false] at ho
        omega
      | true =>
        have hpos : 0 < o := he (hdone hw)
        rw [hw, Bool.toNat_true] at ho
        rw [hdone hw, Bool.toNat_true]
        omega
    obtain ⟨u, hedge, rfl⟩ := step_cases hstep
    simp only [endCycle_fields, hedge.owesCompletion_eq_waiting fun hw _ => hdone hw, hnone, Nat.zero_add]

/-- Settles O31: which edges issue an action (`Edge.accepts_or_matched_of_issued`), the count of outstanding actions
over a step (`outstandingMatches_step`), and a reset edge, which leaves the one action outstanding. -/
theorem actionsFollowExpectedCompletions : Obligations.ActionsFollowExpectedCompletions := by
  unfold Obligations.ActionsFollowExpectedCompletions
  refine ⟨fun s t hstep hi => ?_, fun s t o ho he hr hstep => outstandingMatches_step ho he hr hstep,
    fun s t o ho hw hr hd hstep => ?_, rfl⟩
  · obtain ⟨u, hedge, rfl⟩ := step_cases hstep
    rw [issued_endCycle] at hi
    exact hedge.accepts_or_matched_of_issued hi
  · obtain rfl := (Edge.reset hr).endCycle_of_step hstep
    rw [outstandingMatches, hw] at ho
    exact ⟨by simp, by simpa [outstandingAfter, hd] using ho⟩

/-- A step without reset that does not accept a legal command leaves the operand latches (10_state.md R21, R22). -/
theorem Edge.latches_of_not_acceptsCommand {s u : State} (h : Edge s u) (hr : s.port.rst = false)
    (ha : ¬ acceptsCommand s) : u.op = s.op ∧ u.ra = s.ra ∧ u.cnt = s.cnt ∧ u.wd = s.wd := by
  cases h with
  | reset h => simp [hr] at h
  | acceptRead _ hp hc ra n hw hl => exact absurd ⟨hp, hc, by simpa [hw, Instr.wellFormed] using hl⟩ ha
  | acceptWrite _ hp hc ra v hw => exact absurd ⟨hp, hc, by simp [hw, Instr.wellFormed]⟩ ha
  | idleQuiet | reject | wait | mismatch | started | addressed | regRead | regWrite | restarted | readAddressed
  | captured | readDone | written | settling | settled => exact ⟨rfl, rfl, rfl, rfl⟩

/-- Settles O33, edge by edge. -/
theorem operandLatchesChangeOnlyAtAcceptance : Obligations.OperandLatchesChangeOnlyAtAcceptance := by
  unfold Obligations.OperandLatchesChangeOnlyAtAcceptance
  intro s t hstep hr ha
  obtain ⟨u, hedge, rfl⟩ := step_cases hstep
  simpa using hedge.latches_of_not_acceptsCommand hr ha

/-- A byte is transmitted by four edges only, and each has its byte (41_phases.md R132 to R138). -/
theorem Edge.byte_of_issued_tx {s u : State} (h : Edge s u) {d : Byte} (hi : issued u = some (.tx d)) :
    d = u.txd ∧ ((s.ph = .pStart ∧ d = slaW) ∨ (s.ph = .pSlaw ∧ d = s.ra) ∨
      (s.ph = .pReg ∧ s.op = .write ∧ d = s.wd) ∨ (s.ph = .pRstart ∧ d = slaR)) := by
  cases h with
  | started _ hp => cases hi; exact ⟨rfl, .inl ⟨hp, rfl⟩⟩
  | addressed _ hp => cases hi; exact ⟨rfl, .inr (.inl ⟨hp, rfl⟩)⟩
  | regWrite _ hp _ _ ho => cases hi; exact ⟨rfl, .inr (.inr (.inl ⟨hp, ho, rfl⟩))⟩
  | restarted _ hp => cases hi; exact ⟨rfl, .inr (.inr (.inr ⟨hp, rfl⟩))⟩
  | readAddressed | captured =>
    rw [issued_emit_receive] at hi
    split at hi <;> cases hi
  | reset | idleQuiet | acceptRead | acceptWrite | reject | wait | mismatch | regRead | readDone | written | settling
  | settled => cases hi

/-- Without a transmission the transmit register keeps its byte (10_state.md R24). -/
theorem Edge.txd_of_not_issued_tx {s u : State} (h : Edge s u) (hr : s.port.rst = false)
    (hi : ∀ d, issued u ≠ some (.tx d)) : u.txd = s.txd := by
  cases h with
  | reset h => simp [hr] at h
  | started | addressed | regWrite | restarted => exact absurd rfl (hi _)
  | idleQuiet | acceptRead | acceptWrite | reject | wait | mismatch | regRead | readAddressed | captured | readDone
  | written | settling | settled => rfl

/-- Settles O32: the four transmitting edges, and `txd` on the others; the two address bytes are the device address with
the direction bit by definition. -/
theorem transmittedBytesPerPhase : Obligations.TransmittedBytesPerPhase := by
  unfold Obligations.TransmittedBytesPerPhase
  intro s t hstep
  obtain ⟨u, hedge, rfl⟩ := step_cases hstep
  simp only [issued_endCycle, endCycle_fields]
  exact ⟨fun d hi => hedge.byte_of_issued_tx hi, hedge.txd_of_not_issued_tx⟩

/-- What an edge does to the receive buffer: it captures a byte in `P_RXDATA` on the expected status, and does nothing
otherwise (41_phases.md R140). -/
theorem Edge.buf_cases {s u : State} (h : Edge s u) :
    (s.port.rst = false ∧ s.ph = .pRxdata ∧ matched s ∧ u.buf = writeByte s.buf s.idx s.port.peRxdata) ∨
    ((s.port.rst = true ∨ s.ph ≠ .pRxdata ∨ ¬ matched s) ∧ u.buf = s.buf) := by
  cases h with
  | captured hr hp hd hl hs | readDone hr hp hd hl hs =>
    refine .inl ⟨hr, hp, ⟨by simp [hp, waiting], hd, ?_⟩, rfl⟩
    simp [expectedStatus, hp, hs, ← lastByte_iff, hl]
  | reset hr => exact .inr ⟨.inl hr, rfl⟩
  | wait hr hp hd => exact .inr ⟨.inr (.inr fun ⟨_, hd', _⟩ => by simp [hd'] at hd), rfl⟩
  | mismatch hr hp hm => exact .inr ⟨.inr (.inr (not_matched_of_mismatch hm)), rfl⟩
  | idleQuiet _ hp | acceptRead _ hp | acceptWrite _ hp | reject _ hp | started _ hp | addressed _ hp | regRead _ hp
  | regWrite _ hp | restarted _ hp | readAddressed _ hp | written _ hp | settling _ hp | settled _ hp =>
    exact .inr ⟨.inr (.inl (by simp [hp])), rfl⟩

/-- Settles O34: the edge captures at `idx` or leaves `buf` alone (`Edge.buf_cases`). -/
theorem bufferChangesOnlyByCapture : Obligations.BufferChangesOnlyByCapture := by
  unfold Obligations.BufferChangesOnlyByCapture
  intro s t hstep j
  obtain ⟨u, hedge, rfl⟩ := step_cases hstep
  obtain ⟨hr, hp, ⟨-, hd, he⟩, hbuf⟩ | ⟨hno, hbuf⟩ := hedge.buf_cases
  · simp [hbuf, readByte_writeByte_toNat, hr, hp, hd, he]
  · have hc : ¬ (s.port.rst = false ∧ s.ph = .pRxdata ∧ s.port.peDone = true ∧
        expectedStatus s = some s.port.peStatus ∧ s.idx.toNat = j.val) := by
      rintro ⟨hr, hp, hd, he, -⟩
      rcases hno with h | h | h
      · simp [hr] at h
      · exact h hp
      · exact h ⟨by simp [hp, waiting], hd, he⟩
    simp only [endCycle_fields, if_neg hc, hbuf]

/-- A cycle without an event takes one of the three quiet edges, all of which write `act <- 0` and no register but the
settle timer of `P_SETTLE` (41_phases.md R152 (5)). -/
theorem Edge.quiet {s u : State} (h : Edge s u) (hq : inputEvent s = none) :
    u = emitNone s ∨ (s.ph = .pSettle ∧ u = emitNone { s with settle := s.settle - 1 }) := by
  cases h with
  | idleQuiet | wait => exact .inl rfl
  | settling _ hp => exact .inr ⟨hp, rfl⟩
  | reset hr => simp [inputEvent, hr] at hq
  | acceptRead hr hp hc | acceptWrite hr hp hc | reject hr hp hc => simp [inputEvent, hr, hp, hc] at hq
  | settled hr hp hn => simp [inputEvent, hr, hp, hn] at hq
  | mismatch hr hp hm => cases hph : s.ph <;> simp_all [inputEvent, waiting, Machine.mismatch]
  | started hr hp hd | addressed hr hp hd | regRead hr hp hd | regWrite hr hp hd | restarted hr hp hd
  | readAddressed hr hp hd | captured hr hp hd | readDone hr hp hd | written hr hp hd =>
    simp [inputEvent, hr, hp, hd] at hq

/-- A cycle without an event has no reset, and in `IDLE` no command. -/
theorem quiet_inputs {s : State} (hq : inputEvent s = none) :
    s.port.rst = false ∧ (s.ph = .idle → s.port.cmdValid = false) := by
  cases hr : s.port.rst with
  | true => simp [inputEvent, hr] at hq
  | false => exact ⟨rfl, fun hp => by simpa [inputEvent, hr, hp] using hq⟩

/-- A step that issues no action and keeps the phase puts out nothing, unless it rejects a command (00_scope.md R15). -/
theorem outputEvents_eq_nil {s t : State} (hi : issued t = none) (hp : t.ph = s.ph)
    (hc : s.ph = .idle → s.port.cmdValid = false) : outputEvents s t = [] := by
  have hno : ¬ reportsResult s t := by
    rintro ⟨-, ht, h | h⟩
    · exact h (hp ▸ ht)
    · simp [hc (hp ▸ ht)] at h
  simp only [outputEvents, hi, if_neg hno, Option.toList_none, List.map_nil, List.append_nil]

/-- Settles O36: the quiet edges (`Edge.quiet`) and what they leave. -/
theorem nothingHappensWithoutAnEvent : Obligations.NothingHappensWithoutAnEvent := by
  unfold Obligations.NothingHappensWithoutAnEvent
  intro s t hq hstep
  obtain ⟨-, hc⟩ := quiet_inputs hq
  obtain ⟨u, hedge, rfl⟩ := step_cases hstep
  obtain rfl | ⟨hp, rfl⟩ := hedge.quiet hq
  · exact ⟨outputEvents_eq_nil (by simp [issued]) (by simp) hc, by simp⟩
  · exact ⟨outputEvents_eq_nil (by simp [issued]) (by simp) hc, by simp [hp]⟩

end Sys2Proof.Machine
end

section
/-! PROOFS. Family other, results and commands over a run (10_state.md R33; 00_scope.md R15; 70_reset_and_hazards.md
R230, R246): each command taken is answered by one result. -/

namespace Sys2Proof.Machine

@[simp] theorem done_endCycle (u : State) : done (endCycle u) = done u := by simp [done]

@[simp] theorem busy_endCycle (u : State) : busy (endCycle u) = busy u := by simp [busy]

@[simp] theorem report_endCycle (s u : State) : report s (endCycle u) = report s u := by
  simp [report, reportsResult]

theorem busy_iff (s : State) : busy s = true ↔ s.ph ≠ .idle := decide_eq_true_iff

theorem done_iff (s : State) : done s = true ↔ s.ph = .idle ∧ s.resCode ≠ .noResult := decide_eq_true_iff

theorem cmdReady_eq_not_busy (s : State) : cmdReady s = !busy s := by simp [cmdReady, busy]

/-- A RESULT event is put out exactly by an edge that reports a result (00_scope.md R15). -/
theorem result_mem_outputEvents_iff (s t : State) :
    (∃ c g n x, Event.result c g n x ∈ outputEvents s t) ↔ reportsResult s t := by
  by_cases h : reportsResult s t <;> simp [outputEvents, h]

/-- `done` is 1 after an edge without reset exactly if the edge reported a result, or it was 1 and no command came
(10_state.md R33). -/
theorem Edge.done_iff_reports {s u : State} (h : Edge s u) (hr : s.port.rst = false) :
    done u = true ↔ reportsResult s u ∨ (done s = true ∧ s.port.cmdValid = false) := by
  rw [done_iff, done_iff]
  cases h with
  | reset h => simp [hr] at h
  | idleQuiet _ hp hc | acceptRead _ hp hc | acceptWrite _ hp hc | reject _ hp hc => simp [reportsResult, hr, hp, hc]
  | wait _ hp | mismatch _ hp => simp [reportsResult, hr, ((waiting_iff _).1 hp).1]
  | started _ hp | addressed _ hp | regRead _ hp | regWrite _ hp | restarted _ hp | readAddressed _ hp
  | captured _ hp | readDone _ hp | written _ hp | settling _ hp | settled _ hp => simp [reportsResult, hr, hp]

/-- Over one edge without reset, the commands taken are as many as the results reported, but for the transaction in
flight before it and after it (70_reset_and_hazards.md R246). -/
theorem Edge.commands_eq_reports {s u : State} (h : Edge s u) (hr : s.port.rst = false) :
    (busy s).toNat + (commandTaken s).toList.length = (report s u).toList.length + (busy u).toNat := by
  cases h with
  | reset h => simp [hr] at h
  | idleQuiet _ hp hc | acceptRead _ hp hc | acceptWrite _ hp hc | reject _ hp hc =>
    simp [commandTaken, report, reportsResult, busy, hr, hp, hc]
  | wait _ hp | mismatch _ hp => simp [commandTaken, report, reportsResult, busy, hr, ((waiting_iff _).1 hp).1]
  | started _ hp | addressed _ hp | regRead _ hp | regWrite _ hp | restarted _ hp | readAddressed _ hp
  | captured _ hp | readDone _ hp | written _ hp | settling _ hp | settled _ hp =>
    simp [commandTaken, report, reportsResult, busy, hr, hp]

/-- A transaction is in flight, or the last one has left its result (10_state.md R33). -/
def busyOrDone (s : State) : Prop := busy s = true ∨ done s = true

/-- Once a command has been taken, the block is busy or done until a reset (10_state.md R33, R40). -/
theorem Edge.busyOrDone {s u : State} (h : Edge s u) (hr : s.port.rst = false)
    (hs : commandTaken s ≠ none ∨ busyOrDone s) : busyOrDone u := by
  by_cases hp : u.ph = .idle
  · refine .inr ((h.done_iff_reports hr).2 ?_)
    by_cases hrep : reportsResult s u
    · exact .inl hrep
    · have hq : s.ph = .idle ∧ s.port.cmdValid = false := by simpa [reportsResult, hr, hp] using hrep
      refine .inr ⟨?_, hq.2⟩
      simpa [commandTaken, Machine.busyOrDone, busy, hq] using hs
  · exact .inl ((busy_iff u).2 hp)

/-- No result that is reported is NONE (10_state.md R29). -/
theorem Edge.report_code {s u : State} (h : Edge s u) (hr : s.port.rst = false) {r : Report}
    (hrep : r ∈ (report s u).toList) : r.code ≠ .noResult := by
  by_cases hres : reportsResult s u
  · rw [report_eq s u hres, Option.toList_some, List.mem_singleton] at hrep
    subst hrep
    exact ((done_iff u).1 ((h.done_iff_reports hr).2 (.inl hres))).2
  · simp [report_eq_none s u hres] at hrep

/-- A run without reset reports once for every command, but for a transaction in flight at either end; no report is
NONE, and after the first command the block is busy or done (70_reset_and_hazards.md R246). -/
theorem runs_report_once (k : Nat) : ∀ {s u : State} {cs : List Instr} {rs : List Report}, resetFree k s →
    commandRun k s = some (cs, u) → reportRun k s = some (rs, u) →
    (busy s).toNat + cs.length = rs.length + (busy u).toNat ∧ (∀ r ∈ rs, r.code ≠ .noResult) ∧
      (cs ≠ [] ∨ busyOrDone s → busyOrDone u) := by
  induction k with
  | zero =>
    intro s u cs rs _ hc hr
    obtain ⟨rfl, rfl⟩ : [] = cs ∧ s = u := by simpa [gatherRun] using hc
    obtain rfl : [] = rs := by simpa [gatherRun] using hr
    simp
  | succ k ih =>
    intro s u cs rs hf hc hr
    obtain ⟨t, cs', ht, hc', rfl⟩ := gatherRun_succ_cases hc
    obtain ⟨t', rs', ht', hr', rfl⟩ := gatherRun_succ_cases hr
    obtain rfl : t' = t := by simpa [ht'] using ht
    obtain ⟨v, hedge, rfl⟩ := step_cases ht
    have hrst := hf.rst_eq_false
    obtain ⟨hlen, hcode, hdone⟩ := ih (hedge.resetFree_endCycle hf) hc' hr'
    have hone := hedge.commands_eq_reports hrst
    refine ⟨?_, fun r hmem => ?_, fun hor => hdone ?_⟩
    · simp only [busy_endCycle, report_endCycle, List.length_append] at hlen ⊢
      omega
    · rw [List.mem_append, report_endCycle] at hmem
      exact hmem.elim (hedge.report_code hrst) (hcode r)
    · by_cases hcs : cs' = []
      · refine .inr ?_
        have := hedge.busyOrDone hrst (hor.imp_left fun h => by simpa [hcs] using h)
        simpa [busyOrDone] using this
      · exact .inl hcs

/-- Settles O37: `done` edge by edge (`Edge.done_iff_reports`), the count over a run (`runs_report_once`), and a command
held by its host, which is the next input value. -/
theorem doneRisesExactlyWithAResult : Obligations.DoneRisesExactlyWithAResult := by
  unfold Obligations.DoneRisesExactlyWithAResult
  refine ⟨fun s t hstep hr => ?_, fun k s u cs rs hf hc hrep => ?_, fun s t hh hp hv hstep => ?_⟩
  · obtain ⟨u, hedge, rfl⟩ := step_cases hstep
    have hdone := hedge.done_iff_reports hr
    refine ⟨?_, busy_iff _, cmdReady_eq_not_busy _, fun hp ht hok hop => ?_⟩
    · rw [result_mem_outputEvents_iff]
      simpa [reportsResult] using hdone
    · rw [report_eq _ _ ⟨hr, ht, .inl hp⟩, if_pos ⟨hok, hop⟩, hok]
  · obtain ⟨hlen, hcode, hor⟩ := runs_report_once k (fun p hp => hf p (List.mem_of_mem_take hp)) hc hrep
    refine ⟨hlen, hcode, fun hcs => ⟨?_, fun hp => ?_⟩⟩
    · rintro ⟨-, v, hv, hidle, -⟩
      obtain rfl : u = v := by simpa [hc] using hv
      exact hidle
    · have hdone : done u = true := (hor (.inl hcs)).resolve_left fun hb => (busy_iff u).1 hb hp
      exact ⟨hcs, u, hc, hp, hdone⟩
  · obtain ⟨hv', hw⟩ := (hh hv).resolve_left (by simp [cmdReady, hp])
    obtain ⟨u, hedge, rfl⟩ := step_cases hstep
    have hport : (endCycle u).port = nextPort s := by simp [hedge.nextPort_eq]
    rw [hport]
    exact ⟨hv', hw, fun hidle hr => ⟨hidle, by rw [hport, hr], by rw [hport, hv'], by rw [hport, hw]⟩⟩

end Sys2Proof.Machine
end

section
/-! PROOFS. Family other, a stretch of answers: what a run of input values with any delays does to the registers depends
on the completions in it alone (41_phases.md R125, R126; 40_transactions.md R107, R113, R120). -/

namespace Sys2Proof.Machine

/-- The registers that say where a transaction stands: those of 10_state.md R20 without the two of the engine port. -/
structure Registers where
  ph : Phase
  idx : BitVec 3
  op : Op
  ra : Byte
  cnt : BitVec 3
  wd : Byte
  buf : Block
  settle : Nat
  resCode : ResCode
  resTag : Tag
  resIdx : BitVec 3
  resStatus : Byte

/-- The registers of a state. -/
def registers (s : State) : Registers where
  ph := s.ph
  idx := s.idx
  op := s.op
  ra := s.ra
  cnt := s.cnt
  wd := s.wd
  buf := s.buf
  settle := s.settle
  resCode := s.resCode
  resTag := s.resTag
  resIdx := s.resIdx
  resStatus := s.resStatus

@[simp] theorem registers_endCycle (u : State) : registers (endCycle u) = registers u := by simp [registers]

/-- The completion `a` is on the input ports of this cycle, and no reset. -/
def showsAnswer (a : Byte × Byte) (s : State) : Prop :=
  s.port.rst = false ∧ s.port.peDone = true ∧ s.port.peStatus = a.1 ∧ s.port.peRxdata = a.2

/-- From registers `r`, in a waiting phase, the completion `a` leads to the registers `r'` and issues `act`. -/
def Takes (r : Registers) (a : Byte × Byte) (act : Option Action) (r' : Registers) : Prop :=
  waiting r.ph = true ∧
    ∀ s, registers s = r → showsAnswer a s → ∃ u, Edge s u ∧ issued u = act ∧ registers u = r'

/-- From registers `r` the completions `as` lead to the registers `r'` and issue the actions `acts`. -/
inductive Serves : Registers → List (Byte × Byte) → List Action → Registers → Prop where
  | nil (r : Registers) : Serves r [] [] r
  | cons {r r' r'' : Registers} {a : Byte × Byte} {act : Option Action} {as : List (Byte × Byte)} {acts : List Action}
      (h : Takes r a act r') (t : Serves r' as acts r'') : Serves r (a :: as) (act.toList ++ acts) r''

/-- One more completion at the end. -/
theorem Serves.snoc {r r' r'' : Registers} {as : List (Byte × Byte)} {acts : List Action} {a : Byte × Byte}
    {act : Option Action} (h : Serves r as acts r') (t : Takes r' a act r'') :
    Serves r (as ++ [a]) (acts ++ act.toList) r'' := by
  induction h with
  | nil r => simpa using Serves.cons t (.nil _)
  | cons h _ ih => simpa using Serves.cons h (ih t)

/-- The input values `l` are the present ones and the coming ones; after their end the ports are silent (log 2). -/
def fedBy (l : List PortIn) (s : State) : Prop := ∃ p, s.port = l.headD (hush p) ∧ s.script = l.tail

theorem fedBy_endCycle {u : State} {l : List PortIn} (h : u.script = l) : fedBy l (endCycle u) :=
  ⟨u.port, by simp [nextPort, h], by simp [h]⟩

theorem fedBy.eq_of_ne_nil {l : List PortIn} {s : State} (h : fedBy l s) (hl : l ≠ []) : s.port :: s.script = l := by
  obtain ⟨p, hp, hs⟩ := h
  obtain ⟨q, m, rfl⟩ := List.exists_cons_of_ne_nil hl
  rw [hp, hs, List.headD_cons, List.tail_cons]

/-- Completions on the input ports, with any delays and any commands between them, are served one after another
(41_phases.md R125, R126): a run of the block does what `Serves` says of the completions alone. -/
theorem Serves.actionRun {r r' : Registers} {as : List (Byte × Byte)} {acts : List Action} (h : Serves r as acts r') :
    ∀ (s : State) (ins rest : List PortIn), registers s = r → fedBy (ins ++ rest) s →
      (as = [] → ins = []) → (ins ≠ [] → endsInDone ins) → answers ins = as →
      ∃ t, actionRun ins.length s = some (acts, t) ∧ registers t = r' ∧ fedBy rest t := by
  induction h with
  | nil r =>
    intro s ins rest hr hf hnil _ _
    obtain rfl := hnil rfl
    exact ⟨s, rfl, hr, hf⟩
  | @cons r r₁ r₂ a act as acts htake _ ih =>
    intro s ins rest hr hf _ hend ha
    obtain ⟨hw, hedge⟩ := htake
    have hins : ins ≠ [] := by rintro rfl; simp [answers] at ha
    obtain ⟨m, s', ins', hrun, hlen, hrst, hd, hstatus, hscript, ha', hend', hnil', hs'⟩ :=
      run_to_completion rest ins s a as (by rw [← hr] at hw; exact hw) (hf.eq_of_ne_nil (by simp [hins])) (hend hins) ha
    have hr' : registers s' = r := by rw [hs']; exact hr
    obtain ⟨u, hu, hact, hru⟩ := hedge s' hr' ⟨hrst, hd, congrArg Prod.fst hstatus, congrArg Prod.snd hstatus⟩
    have hfed : fedBy (ins' ++ rest) (endCycle u) := fedBy_endCycle (hu.keeps_ports.2.1.trans hscript)
    obtain ⟨t, hrest, hrt, hft⟩ := ih (endCycle u) ins' rest (by simpa using hru) hfed hnil' hend' ha'
    refine ⟨t, ?_, hrt, hft⟩
    have hone := actionRun_succ hu.step hrest
    rw [issued_endCycle, hact] at hone
    rw [hlen, Nat.add_assoc, Nat.add_comm 1]
    have hboth := actionRun_add hrun hone
    exact hboth

/-- The same, of a stretch that ends in a completion (40_transactions.md R107, R113, R120). -/
theorem Serves.actionRun_of_endsInDone {r r' : Registers} {as : List (Byte × Byte)} {acts : List Action}
    (h : Serves r as acts r') {s : State} {ins rest : List PortIn} (hr : registers s = r) (hf : fedBy (ins ++ rest) s)
    (hend : endsInDone ins) (ha : answers ins = as) :
    ∃ t, Machine.actionRun ins.length s = some (acts, t) ∧ registers t = r' ∧ fedBy rest t :=
  h.actionRun s ins rest hr hf (fun h => absurd (ha.trans h) (answers_ne_nil hend)) (fun _ => hend) ha

/-- The last of a list of completions, told by its status. -/
theorem exists_snoc_of_map_fst {as : List (Byte × Byte)} {l : List Byte} {x : Byte} (h : as.map Prod.fst = l ++ [x]) :
    ∃ bs d, as = bs ++ [(x, d)] ∧ bs.map Prod.fst = l := by
  obtain ⟨bs, cs, rfl, hbs, hcs⟩ := List.map_eq_append_iff.1 h
  obtain ⟨⟨y, d⟩, rfl, rfl⟩ : ∃ a, cs = [a] ∧ a.1 = x := by simpa [List.map_eq_singleton_iff] using hcs
  exact ⟨bs, d, rfl, hbs⟩

/-- Answers to the first `k` of some statuses are `k` answers. -/
theorem length_of_map_fst {as : List (Byte × Byte)} {l : List Byte} {k : Nat} (h : as.map Prod.fst = l.take k)
    (hk : k ≤ l.length) : as.length = k := by
  rw [← List.length_map (f := Prod.fst), h, List.length_take_of_le hk]

/-- A transaction taken stage by stage: if the status of its number takes every stage to the next one, and issues the
action of its number, then the first `k` of the expected statuses are served (40_transactions.md R107, R113). -/
theorem serves_stages {r₀ : Registers} {statuses : List Byte} {acts : List Action}
    {stage : List Byte → Registers → Prop} {n : Nat} (h0 : stage [] r₀)
    (hstep : ∀ ds r, ds.length < n → stage ds r → ∀ st d, statuses[ds.length]? = some st →
      ∃ r', Takes r (st, d) acts[ds.length]? r' ∧ stage (ds ++ [d]) r') :
    ∀ k, k ≤ n → k ≤ statuses.length → ∀ as : List (Byte × Byte), as.map Prod.fst = statuses.take k →
      ∃ r, Serves r₀ as (acts.take k) r ∧ stage (as.map Prod.snd) r := by
  intro k
  induction k with
  | zero =>
    intro _ _ as has
    obtain rfl : as = [] := by simpa using has
    exact ⟨r₀, .nil r₀, h0⟩
  | succ k ih =>
    intro hk hks as has
    have hst : statuses[k]? = some statuses[k] := List.getElem?_eq_getElem hks
    rw [List.take_add_one, hst, Option.toList_some] at has
    obtain ⟨bs, d, rfl, hbs⟩ := exists_snoc_of_map_fst has
    obtain ⟨r, hserves, hstage⟩ := ih (by omega) (by omega) bs hbs
    have hlen : (bs.map Prod.snd).length = k := by rw [List.length_map, length_of_map_fst hbs (by omega)]
    obtain ⟨r', htake, hstage'⟩ := hstep _ r (by omega) hstage statuses[k] d (by rw [hlen, hst])
    rw [hlen] at htake
    exact ⟨r', by rw [List.take_add_one]; exact hserves.snoc htake, by simpa using hstage'⟩

/-- The registers after the abort of a phase on status `x` (60_exceptions.md R191, R193). -/
def Registers.failed (r : Registers) (x : Byte) : Registers :=
  { r with
    ph := .idle, resCode := .fail, resTag := tagOfPhase r.ph, resIdx := if r.ph = .pRxdata then r.idx else 0
    resStatus := x }

/-- The status that registers `r` wait for, in every state that holds them (41_phases.md R131). -/
def Awaits (r : Registers) (e : Byte) : Prop := ∀ s, registers s = r → expectedStatus s = some e

theorem Awaits.waiting {r : Registers} {e : Byte} (h : Awaits r e) : Machine.waiting r.ph = true := by
  have he := h { State.reset with
    ph := r.ph, idx := r.idx, op := r.op, ra := r.ra, cnt := r.cnt, wd := r.wd, buf := r.buf, settle := r.settle
    resCode := r.resCode, resTag := r.resTag, resIdx := r.resIdx, resStatus := r.resStatus } rfl
  cases hp : r.ph <;> simp_all [expectedStatus, Machine.waiting]

/-- Any other status aborts, and issues nothing (60_exceptions.md R193). -/
theorem Awaits.takes_mismatch {r : Registers} {e x : Byte} (h : Awaits r e) (hx : x ≠ e) (d : Byte) :
    Takes r (x, d) none (r.failed x) := by
  refine ⟨h.waiting, fun s hs ⟨hr, hd, hst, _⟩ => ?_⟩
  have hm : mismatch s := ⟨hd, e, h s hs, by rw [hst]; exact hx⟩
  subst hs
  refine ⟨_, .mismatch hr (mismatch_waiting hm) hm, rfl, ?_⟩
  rw [hst]
  rfl

/-- A transaction whose answer number `k` is the first unexpected one: the stages before it are served, and the last one
aborts (40_transactions.md R120). -/
theorem serves_stages_mismatch {r₀ : Registers} {statuses : List Byte} {acts : List Action}
    {stage : List Byte → Registers → Prop} {n : Nat} (h0 : stage [] r₀)
    (hstep : ∀ ds r, ds.length < n → stage ds r → ∀ st d, statuses[ds.length]? = some st →
      ∃ r', Takes r (st, d) acts[ds.length]? r' ∧ stage (ds ++ [d]) r')
    (hawait : ∀ ds r, stage ds r → ∀ e, statuses[ds.length]? = some e → Awaits r e)
    {k : Nat} {e x : Byte} (hk : k ≤ n) (he : statuses[k]? = some e) (hx : x ≠ e) {as : List (Byte × Byte)}
    (has : as.map Prod.fst = statuses.take k ++ [x]) :
    ∃ bs d r, as = bs ++ [(x, d)] ∧ bs.length = k ∧ Serves r₀ as (acts.take k) (r.failed x) ∧
      stage (bs.map Prod.snd) r := by
  obtain ⟨hks, -⟩ := List.getElem?_eq_some_iff.1 he
  obtain ⟨bs, d, rfl, hbs⟩ := exists_snoc_of_map_fst has
  obtain ⟨r, hserves, hstage⟩ := serves_stages h0 hstep k hk hks.le bs hbs
  have hlen : bs.length = k := length_of_map_fst hbs hks.le
  have htake := (hawait _ r hstage e (by simpa [hlen] using he)).takes_mismatch hx d
  exact ⟨bs, d, r, rfl, hlen, by simpa using hserves.snoc htake, hstage⟩

/-! The work of each waiting phase, as it shows in the registers (41_phases.md R132 to R142). -/

theorem takes_started {r : Registers} (hp : r.ph = .pStart) (d : Byte) :
    Takes r (stStart, d) (some (.tx slaW)) { r with ph := .pSlaw } := by
  refine ⟨by simp [hp, waiting], ?_⟩
  rintro s rfl ⟨hr, hd, hst, -⟩
  exact ⟨_, .started hr hp hd hst, rfl, rfl⟩

theorem takes_addressed {r : Registers} (hp : r.ph = .pSlaw) (d : Byte) :
    Takes r (stSlawAck, d) (some (.tx r.ra)) { r with ph := .pReg } := by
  refine ⟨by simp [hp, waiting], ?_⟩
  rintro s rfl ⟨hr, hd, hst, -⟩
  exact ⟨_, .addressed hr hp hd hst, rfl, rfl⟩

theorem takes_regRead {r : Registers} (hp : r.ph = .pReg) (ho : r.op = .read) (d : Byte) :
    Takes r (stTxdataAck, d) (some .start) { r with ph := .pRstart } := by
  refine ⟨by simp [hp, waiting], ?_⟩
  rintro s rfl ⟨hr, hd, hst, -⟩
  exact ⟨_, .regRead hr hp hd hst ho, rfl, rfl⟩

theorem takes_regWrite {r : Registers} (hp : r.ph = .pReg) (ho : r.op = .write) (d : Byte) :
    Takes r (stTxdataAck, d) (some (.tx r.wd)) { r with ph := .pWdata } := by
  refine ⟨by simp [hp, waiting], ?_⟩
  rintro s rfl ⟨hr, hd, hst, -⟩
  exact ⟨_, .regWrite hr hp hd hst ho, rfl, rfl⟩

theorem takes_restarted {r : Registers} (hp : r.ph = .pRstart) (d : Byte) :
    Takes r (stRstart, d) (some (.tx slaR)) { r with ph := .pSlar } := by
  refine ⟨by simp [hp, waiting], ?_⟩
  rintro s rfl ⟨hr, hd, hst, -⟩
  exact ⟨_, .restarted hr hp hd hst, rfl, rfl⟩

theorem takes_readAddressed {r : Registers} (hp : r.ph = .pSlar) (d : Byte) :
    Takes r (stSlarAck, d) (some (if r.cnt = 1 then .rxn else .rxa)) { r with ph := .pRxdata } := by
  refine ⟨by simp [hp, waiting], ?_⟩
  rintro s rfl ⟨hr, hd, hst, -⟩
  exact ⟨_, .readAddressed hr hp hd hst, issued_emit_receive _ _, rfl⟩

theorem takes_captured {r : Registers} (hp : r.ph = .pRxdata) (hl : r.idx.toNat + 1 ≠ r.cnt.toNat) (d : Byte) :
    Takes r (stRxdataAck, d) (some (if r.idx.toNat + 2 = r.cnt.toNat then .rxn else .rxa))
      { r with buf := writeByte r.buf r.idx d, idx := r.idx + 1 } := by
  refine ⟨by simp [hp, waiting], ?_⟩
  rintro s rfl ⟨hr, hd, hst, rfl⟩
  refine ⟨_, .captured hr hp hd (by simpa [lastByte, registers] using hl) hst, ?_, rfl⟩
  simp only [issued_emit_receive, nextIsLast_iff]
  rfl

theorem takes_readDone {r : Registers} (hp : r.ph = .pRxdata) (hl : r.idx.toNat + 1 = r.cnt.toNat) (d : Byte) :
    Takes r (stRxdataNack, d) (some .stop)
      { r with buf := writeByte r.buf r.idx d, resCode := .ok, ph := .idle } := by
  refine ⟨by simp [hp, waiting], ?_⟩
  rintro s rfl ⟨hr, hd, hst, rfl⟩
  exact ⟨_, .readDone hr hp hd ((lastByte_iff s).2 hl) hst, rfl, rfl⟩

theorem takes_written {r : Registers} (hp : r.ph = .pWdata) (d : Byte) :
    Takes r (stTxdataAck, d) (some .stop) { r with settle := Config.tSettle, ph := .pSettle } := by
  refine ⟨by simp [hp, waiting], ?_⟩
  rintro s rfl ⟨hr, hd, hst, -⟩
  exact ⟨_, .written hr hp hd hst, rfl, rfl⟩

end Sys2Proof.Machine
end

section
/-! PROOFS. Family other, whole transactions as the host sees them: a READ (40_transactions.md R107, R120), a WRITE
(R113, R120), and the decoded time of a full READ (42_bcd_codec.md R188). -/

namespace Sys2Proof.Machine

/-- The phase in which a READ waits for its answer number `k`, counted from 0 (40_transactions.md R107). -/
def readPhase : Nat → Phase
  | 0 => .pStart
  | 1 => .pSlaw
  | 2 => .pReg
  | 3 => .pRstart
  | 4 => .pSlar
  | _ => .pRxdata

/-- `blk` is the receive buffer `b₀` after the answers to a READ brought the bytes `ds`: the first five are no data, the
others are stored from index 0 upwards (41_phases.md R140). -/
def holdsBytes (b₀ : Block) (ds : List Byte) (blk : Block) : Prop :=
  ∀ i : Fin 7, readByte blk i = ds[5 + i.val]?.getD (readByte b₀ i)

/-- An answer before the data stores nothing. -/
theorem holdsBytes.address {b₀ blk : Block} {ds : List Byte} (h : holdsBytes b₀ ds blk) (hl : ds.length < 5)
    (d : Byte) : holdsBytes b₀ (ds ++ [d]) blk := by
  intro i
  rw [h i, List.getElem?_eq_none (by omega), List.getElem?_eq_none (by simp; omega)]

/-- A data byte is stored at its index (41_phases.md R140). -/
theorem holdsBytes.data {b₀ blk : Block} {ds : List Byte} (h : holdsBytes b₀ ds blk) (hl : 5 ≤ ds.length)
    {j : BitVec 3} (hj : j.toNat = ds.length - 5) (d : Byte) : holdsBytes b₀ (ds ++ [d]) (writeByte blk j d) := by
  intro i
  rw [readByte_writeByte_toNat, hj, List.getElem?_append, List.getElem?_singleton]
  split
  · rw [if_neg (by omega), if_pos (by omega), Option.getD_some]
  · rw [h i]
    split
    · rfl
    · rw [if_neg (by omega), List.getElem?_eq_none (by omega)]

/-- A data byte that has come stands at its index. -/
theorem holdsBytes.getElem?_of_lt {b₀ blk : Block} {ds : List Byte} (h : holdsBytes b₀ ds blk) {i : Fin 7}
    (hi : 5 + i.val < ds.length) : ds[5 + i.val]? = some (readByte blk i) := by
  rw [h i, List.getElem?_eq_getElem hi, Option.getD_some]

/-- Above the data bytes that have come the buffer is as before. -/
theorem holdsBytes.readByte_of_ge {b₀ blk : Block} {ds : List Byte} (h : holdsBytes b₀ ds blk) {i : Fin 7}
    (hi : ds.length ≤ 5 + i.val) : readByte blk i = readByte b₀ i := by
  rw [h i, List.getElem?_eq_none hi, Option.getD_none]

/-- Where a READ that began with registers `r₀` stands after its first answers brought the bytes `ds`: in the phase of
the next answer, at the index of the next data byte, the data in `buf`, and every other register as it was. -/
structure ReadStage (r₀ : Registers) (ds : List Byte) (r : Registers) : Prop where
  ph : r.ph = readPhase ds.length
  idx : r.idx.toNat = ds.length - 5
  bytes : holdsBytes r₀.buf ds r.buf
  frame : { r with ph := r₀.ph, idx := r₀.idx, buf := r₀.buf } = r₀

/-- Registers with which a READ of `n` bytes begins (40_transactions.md R106). -/
structure BeginsRead (ra : Byte) (n : Nat) (r₀ : Registers) : Prop where
  ph : r₀.ph = .pStart
  idx : r₀.idx = 0
  op : r₀.op = .read
  ra : r₀.ra = ra
  cnt : r₀.cnt.toNat = n
  pos : 1 ≤ n

theorem BeginsRead.le_seven {ra : Byte} {n : Nat} {r₀ : Registers} (h : BeginsRead ra n r₀) : n ≤ 7 := by
  rw [← h.cnt]
  exact Nat.le_of_lt_succ r₀.cnt.isLt

theorem BeginsRead.readStage_nil {ra : Byte} {n : Nat} {r₀ : Registers} (h : BeginsRead ra n r₀) :
    ReadStage r₀ [] r₀ := by
  exact ⟨h.ph, by simp [h.idx], fun i => rfl, rfl⟩

section
variable {reg : Byte} {n : Nat} {r₀ r : Registers} {ds : List Byte}

theorem ReadStage.op_eq (h : ReadStage r₀ ds r) : r.op = r₀.op := by rw [← h.frame]

theorem ReadStage.ra_eq (h : ReadStage r₀ ds r) : r.ra = r₀.ra := by rw [← h.frame]

theorem ReadStage.cnt_eq (h : ReadStage r₀ ds r) : r.cnt = r₀.cnt := by rw [← h.frame]

theorem readPhase_of_le {k : Nat} (h : 5 ≤ k) : readPhase k = .pRxdata := by
  obtain ⟨j, rfl⟩ := Nat.exists_eq_add_of_le' h
  rfl

/-- The answer to an address or register byte moves a READ to its next phase (41_phases.md R132 to R139). -/
theorem ReadStage.address (h : ReadStage r₀ ds r) (hl : ds.length < 5) (d : Byte) {p : Phase}
    (hp : p = readPhase (ds.length + 1)) : ReadStage r₀ (ds ++ [d]) { r with ph := p } where
  ph := by rw [List.length_append, List.length_singleton, hp]
  idx := by rw [h.idx, List.length_append, List.length_singleton]; omega
  bytes := h.bytes.address hl d
  frame := h.frame

/-- A data byte that is not the last moves a READ to its next byte (41_phases.md R140). -/
theorem ReadStage.data (h : ReadStage r₀ ds r) (hl : 5 ≤ ds.length) (h7 : ds.length - 5 < 7) (d : Byte) :
    ReadStage r₀ (ds ++ [d]) { r with buf := writeByte r.buf r.idx d, idx := r.idx + 1 } where
  ph := by rw [h.ph, readPhase_of_le hl, readPhase_of_le (by simp; omega)]
  idx := by
    have hidx := h.idx
    rw [BitVec.toNat_add_of_lt (by simp; omega), hidx, List.length_append, List.length_singleton]
    simp
    omega
  bytes := h.bytes.data hl h.idx d
  frame := h.frame

end

/-- The last `n` entries of a list of a READ, one for each data byte (40_transactions.md R107). -/
theorem getElem?_replicate_append_cons {α : Type} (x y : α) (l : List α) {n j : Nat} (h : j < n) :
    (List.replicate (n - 1) x ++ y :: l)[j]? = some (if j + 1 = n then y else x) := by
  split
  · rw [List.getElem?_append_right (by simp; omega), List.length_replicate, show j - (n - 1) = 0 by omega,
      List.getElem?_cons_zero]
  · rw [List.getElem?_append_left (by simp; omega), List.getElem?_replicate_of_lt (by omega)]

/-- The status of data byte `j` of a READ: not acknowledged if it is the last (40_transactions.md R107). -/
theorem readStatuses_data {n j : Nat} (h : j < n) :
    (readStatuses n)[5 + j]? = some (if j + 1 = n then stRxdataNack else stRxdataAck) := by
  rw [← getElem?_replicate_append_cons _ _ [] h, readStatuses, List.append_assoc,
    List.getElem?_append_right (Nat.le_add_right 5 j)]
  simp

/-- The action that asks for data byte `j` of a READ (40_transactions.md R107). -/
theorem readActions_data (ra : Byte) {n j : Nat} (h : j < n) :
    (readActions ra n).tail[4 + j]? = some (if j + 1 = n then .rxn else .rxa) := by
  rw [← getElem?_replicate_append_cons _ _ [.stop] h, readActions, List.append_assoc, List.getElem?_tail,
    List.getElem?_append_right (by simp)]
  congr 1
  simp

theorem length_readStatuses {n : Nat} (h : 1 ≤ n) : (readStatuses n).length = n + 5 := by
  simp [readStatuses, Nat.sub_add_cancel h]

theorem length_readActions (ra : Byte) {n : Nat} (h : 1 ≤ n) : (readActions ra n).length = n + 6 := by
  simp [readActions, Nat.sub_add_cancel h]

/-- The action that ends a READ (40_transactions.md R107). -/
theorem readActions_stop (ra : Byte) {n : Nat} (h : 1 ≤ n) : (readActions ra n).tail[n + 4]? = some .stop := by
  obtain ⟨m, rfl⟩ := Nat.exists_eq_add_of_le' h
  simp [readActions]

theorem take_append_of_getElem? {α : Type} {l : List α} {k : Nat} {x : α} (hl : l.length = k + 1)
    (hx : l[k]? = some x) : l.take k ++ [x] = l := by
  rw [← Option.toList_some, ← hx, ← List.take_add_one, List.take_of_length_le hl.le]

section
variable {reg : Byte} {n : Nat} {r₀ r : Registers} {ds : List Byte}

/-- Every stage of a READ but the last goes on to the next one with the action of its number (40_transactions.md
R107). -/
theorem ReadStage.next (hb : BeginsRead reg n r₀) (h : ReadStage r₀ ds r) (hl : ds.length < n + 4) {st d : Byte}
    (hst : (readStatuses n)[ds.length]? = some st) :
    ∃ r', Takes r (st, d) (readActions reg n).tail[ds.length]? r' ∧ ReadStage r₀ (ds ++ [d]) r' := by
  have hp := h.ph
  obtain hk | hk | hk | hk | hk | hk : ds.length = 0 ∨ ds.length = 1 ∨ ds.length = 2 ∨ ds.length = 3 ∨ ds.length = 4 ∨
    5 ≤ ds.length := by omega
  · rw [hk] at hp hst ⊢
    cases hst
    exact ⟨_, takes_started hp d, h.address (by omega) d (by rw [hk]; rfl)⟩
  · rw [hk] at hp hst ⊢
    cases hst
    have hact : (readActions reg n).tail[1]? = some (.tx r.ra) := by
      rw [h.ra_eq, hb.ra]
      rfl
    rw [hact]
    exact ⟨_, takes_addressed hp d, h.address (by omega) d (by rw [hk]; rfl)⟩
  · rw [hk] at hp hst ⊢
    cases hst
    exact ⟨_, takes_regRead hp (h.op_eq.trans hb.op) d, h.address (by omega) d (by rw [hk]; rfl)⟩
  · rw [hk] at hp hst ⊢
    cases hst
    exact ⟨_, takes_restarted hp d, h.address (by omega) d (by rw [hk]; rfl)⟩
  · rw [hk] at hp hst ⊢
    cases hst
    have hone : r.cnt = 1 ↔ 0 + 1 = n := by
      rw [h.cnt_eq, ← BitVec.toNat_inj, hb.cnt]
      exact eq_comm
    have htake := takes_readAddressed hp d
    simp only [hone] at htake
    rw [readActions_data reg (j := 0) hb.pos]
    exact ⟨_, htake, h.address (by omega) d (by rw [hk]; rfl)⟩
  · obtain ⟨j, hj⟩ := Nat.exists_eq_add_of_le hk
    have hn7 := hb.le_seven
    have hidx := h.idx
    have hcnt : r.cnt.toNat = n := h.cnt_eq ▸ hb.cnt
    rw [readPhase_of_le hk] at hp
    have hst : st = stRxdataAck := by
      rw [hj, readStatuses_data (by omega), if_neg (by omega)] at hst
      exact (Option.some.inj hst).symm
    have htake := takes_captured hp (by omega) d
    rw [hst, hj, show 5 + j = 4 + (j + 1) by omega, readActions_data reg (by omega)]
    simp only [show r.idx.toNat + 2 = r.cnt.toNat ↔ j + 1 + 1 = n by omega] at htake
    exact ⟨_, htake, h.data hk (by omega) d⟩

/-- Every stage of a READ waits for the status of its number (40_transactions.md R107). -/
theorem ReadStage.awaits (hb : BeginsRead reg n r₀) (h : ReadStage r₀ ds r) {e : Byte}
    (he : (readStatuses n)[ds.length]? = some e) : Awaits r e := by
  have hlt : ds.length < n + 5 := by
    rw [← length_readStatuses hb.pos]
    exact (List.getElem?_eq_some_iff.1 he).1
  rintro s rfl
  have hp : s.ph = readPhase ds.length := h.ph
  obtain hk | hk := Nat.lt_or_ge ds.length 5
  · interval_cases ds.length <;> (cases he; simp [expectedStatus, hp, readPhase])
  · obtain ⟨j, hj⟩ := Nat.exists_eq_add_of_le hk
    have hidx : s.idx.toNat = j := by
      have := h.idx
      simp only [registers] at this
      omega
    have hcnt : s.cnt.toNat = n := (congrArg BitVec.toNat h.cnt_eq).trans hb.cnt
    rw [readPhase_of_le hk] at hp
    rw [hj, readStatuses_data (by omega)] at he
    simpa only [expectedStatus, hp, hidx, hcnt] using he

/-- How a READ that began with registers `r₀` ends after its answers brought the bytes `ds` with the expected statuses
(41_phases.md R140). -/
structure ReadEnd (r₀ : Registers) (ds : List Byte) (r : Registers) : Prop where
  ph : r.ph = .idle
  resCode : r.resCode = .ok
  bytes : holdsBytes r₀.buf ds r.buf
  frame : { r with ph := r₀.ph, idx := r₀.idx, buf := r₀.buf, resCode := r₀.resCode } = r₀

/-- All answers to a READ as expected: the last one stores its byte and ends the READ with STOP and OK
(40_transactions.md R107). -/
theorem BeginsRead.serves (hb : BeginsRead reg n r₀) {as : List (Byte × Byte)}
    (has : as.map Prod.fst = readStatuses n) :
    ∃ r, Serves r₀ as (readActions reg n).tail r ∧ ReadEnd r₀ (as.map Prod.snd) r := by
  have hpos := hb.pos
  have hn7 := hb.le_seven
  have hlen := length_readStatuses hpos
  have hnack : (readStatuses n)[n + 4]? = some stRxdataNack := by
    rw [show n + 4 = 5 + (n - 1) by omega, readStatuses_data (by omega), if_pos (by omega)]
  have hstop : (readActions reg n).tail.take (n + 4) ++ [.stop] = (readActions reg n).tail :=
    take_append_of_getElem? (by rw [List.length_tail, length_readActions reg hpos]; rfl) (readActions_stop reg hpos)
  obtain ⟨bs, d, rfl, hbs⟩ := exists_snoc_of_map_fst (has.trans (take_append_of_getElem? hlen hnack).symm)
  obtain ⟨r, hserves, hstage⟩ :=
    serves_stages hb.readStage_nil (fun _ _ hl h _ _ hst => h.next hb hl hst) (n + 4) le_rfl (by omega) bs hbs
  have hds : (bs.map Prod.snd).length = n + 4 := by rw [List.length_map, length_of_map_fst hbs (by omega)]
  have hp : r.ph = .pRxdata := by rw [hstage.ph, hds, readPhase_of_le (by omega)]
  have hidx := hstage.idx
  have hcnt : r.cnt.toNat = n := (congrArg BitVec.toNat hstage.cnt_eq).trans hb.cnt
  have hdone := hserves.snoc (takes_readDone hp (by omega) d)
  rw [Option.toList_some, hstop] at hdone
  refine ⟨_, hdone, rfl, rfl, ?_, congrArg (fun q : Registers => { q with resCode := r₀.resCode }) hstage.frame⟩
  rw [List.map_append]
  exact hstage.bytes.data (by omega) hidx d

/-- The tag of the phase that takes a READ's answer number `k` (60_exceptions.md R191). -/
theorem tagOfPhase_readPhase (k : Nat) : tagOfPhase (readPhase k) = readTag k := by
  match k with
  | 0 | 1 | 2 | 3 | 4 | _ + 5 => rfl

/-- The number of the data byte in a failure of a READ, 0 before the data (60_exceptions.md R191). -/
theorem ReadStage.resIdx_failed (h : ReadStage r₀ ds r) (x : Byte) : (r.failed x).resIdx.toNat = ds.length - 5 := by
  obtain hk | hk := Nat.lt_or_ge ds.length 5
  · have hp : r.ph ≠ .pRxdata := by
      rw [h.ph]
      interval_cases ds.length <;> simp [readPhase]
    rw [Registers.failed, if_neg hp, Nat.sub_eq_zero_of_le hk.le]
    rfl
  · rw [Registers.failed, if_pos (h.ph.trans (readPhase_of_le hk)), h.idx]

end

/-- A run that begins with an edge of acceptance, and goes on with a stretch of answers. -/
theorem actionRun_of_accepted {s u : State} {ins rest : List PortIn} {as : List (Byte × Byte)} {acts : List Action}
    {r : Registers} (hedge : Edge s u) (hact : issued u = some .start) (hs : s.script = ins ++ rest)
    (hend : endsInDone ins) (hserves : Serves (registers u) as acts r) (ha : answers ins = as) :
    ∃ t, actionRun (1 + ins.length) s = some (.start :: acts, t) ∧ registers t = r ∧ fedBy rest t := by
  have hfed : fedBy (ins ++ rest) (endCycle u) := fedBy_endCycle (hedge.keeps_ports.2.1.trans hs)
  obtain ⟨t, hrun, hr, hf⟩ := hserves.actionRun_of_endsInDone (registers_endCycle u) hfed hend ha
  have hone := actionRun_succ hedge.step hrun
  rw [issued_endCycle, hact] at hone
  rw [Nat.add_comm]
  exact ⟨t, hone, hr, hf⟩

/-- The registers of an accepted READ, before any answer (40_transactions.md R106). -/
theorem beginsRead_accept (ra : Byte) {n : Byte} (h1 : 1 ≤ n.toNat) (h7 : n.toNat ≤ 7) (s : State) :
    BeginsRead ra n.toNat (registers (accept .read ra (n.extractLsb' 0 3) 0 s)) where
  ph := rfl
  idx := rfl
  op := rfl
  ra := rfl
  cnt := by
    have hcnt : (n.extractLsb' 0 3).toNat = n.toNat := by
      rw [extractLsb'_count, BitVec.toNat_ofNat]
      omega
    exact hcnt
  pos := h1

/-- A READ presented to an idle block is accepted (40_transactions.md R106). -/
theorem edge_of_presents_read {s : State} {ra n : Byte} (h : presents (0#1 ++ ra ++ n) s) (h1 : 1 ≤ n.toNat)
    (h7 : n.toNat ≤ 7) : Edge s (accept .read ra (n.extractLsb' 0 3) 0 s) := by
  obtain ⟨hp, hr, hc, hw⟩ := h
  exact .acceptRead hr hp hc ra n (decodeCmd_of_eq_read hw) ((legalCount_iff n).2 ⟨h1, h7⟩)

/-- A WRITE presented to an idle block is accepted (40_transactions.md R112). -/
theorem edge_of_presents_write {s : State} {ra v : Byte} (h : presents (1#1 ++ ra ++ v) s) :
    Edge s (accept .write ra 1 v s) := by
  obtain ⟨hp, hr, hc, hw⟩ := h
  exact .acceptWrite hr hp hc ra v (decodeCmd_of_eq_write hw)

/-- Settles O46: acceptance, and the answers served one after another (`BeginsRead.serves`); the registers after them
show the result and the bytes. -/
theorem readWithExpectedStatusesSucceeds : Obligations.ReadWithExpectedStatusesSucceeds := by
  unfold Obligations.ReadWithExpectedStatusesSucceeds
  intro s ra n ins rest hpres h1 h7 hs hend has
  have hlen : (answers ins).length = n.toNat + 5 := by
    rw [← length_readStatuses h1, ← has, List.length_map]
  obtain ⟨r, hserves, hr⟩ := (beginsRead_accept ra h1 h7 s).serves has
  obtain ⟨t, hrun, rfl, -⟩ := actionRun_of_accepted (edge_of_presents_read hpres h1 h7) rfl hs hend hserves rfl
  have hph : t.ph = .idle := hr.ph
  have hok : t.resCode = .ok := hr.resCode
  refine ⟨length_readActions ra h1, hlen, t, hrun, hph, hok, congrArg Registers.resTag hr.frame,
    congrArg Registers.resIdx hr.frame, congrArg Registers.resStatus hr.frame, by simp [busy, hph],
    by simp [done, hph, hok], fun i hi => ?_, fun i hi => ?_⟩
  · rw [← List.getElem?_map]
    exact hr.bytes.getElem?_of_lt (by rw [List.length_map]; omega)
  · exact hr.bytes.readByte_of_ge (by rw [List.length_map]; omega)

/-- Settles O47: acceptance, and the answers up to the unexpected one, whose stage aborts (`serves_stages_mismatch`). -/
theorem readWithUnexpectedStatusFails : Obligations.ReadWithUnexpectedStatusFails := by
  unfold Obligations.ReadWithUnexpectedStatusFails
  intro s ra n ins rest k x e hpres h1 h7 hs hend he hx has
  have hb := beginsRead_accept ra h1 h7 s
  have hk : k < n.toNat + 5 := by
    rw [← length_readStatuses h1]
    exact (List.getElem?_eq_some_iff.1 he).1
  obtain ⟨bs, d, r, hbs, hlen, hserves, hstage⟩ :=
    serves_stages_mismatch hb.readStage_nil (fun _ _ hl h _ _ hst => h.next hb hl hst)
      (fun _ _ h _ he => h.awaits hb he) (Nat.le_of_lt_succ hk) he hx has
  obtain ⟨t, hrun, ht, -⟩ := actionRun_of_accepted (edge_of_presents_read hpres h1 h7) rfl hs hend hserves rfl
  have hds : (bs.map Prod.snd).length = k := by rw [List.length_map, hlen]
  have hph : t.ph = .idle := congrArg Registers.ph ht
  have hfail : t.resCode = .fail := congrArg Registers.resCode ht
  have htag : t.resTag = tagOfPhase r.ph := congrArg Registers.resTag ht
  have hidx : t.resIdx = (r.failed x).resIdx := congrArg Registers.resIdx ht
  have hbuf : t.buf = r.buf := congrArg Registers.buf ht
  refine ⟨t, hrun, hph, hfail, ?_, ?_, congrArg Registers.resStatus ht, by simp [busy, hph],
    by simp [done, hph, hfail], fun i hi => ?_, fun i hi => ?_⟩
  · rw [htag, hstage.ph, tagOfPhase_readPhase, hds]
  · rw [hidx, hstage.resIdx_failed, hds]
  · rw [hbs, List.getElem?_append_left (by omega), ← List.getElem?_map, hbuf]
    exact hstage.bytes.getElem?_of_lt (by omega)
  · rw [hbuf]
    exact hstage.bytes.readByte_of_ge (by omega)

/-- Two blocks with the same seven bytes are the same. -/
theorem block_ext {a b : Block} (h : ∀ i, readByte a i = readByte b i) : a = b := by
  cases a
  cases b
  exact (Block.mk.injEq ..).mpr ⟨h 0, h 1, h 2, h 3, h 4, h 5, h 6⟩

/-- A buffer that holds seven data bytes is those bytes, whatever was in it before. -/
theorem holdsBytes.eq_of_seven {b₀ blk : Block} {ds : List Byte} {d0 d1 d2 d3 d4 d5 d6 : Byte}
    (h : holdsBytes b₀ ds blk) (hds : ds.drop 5 = [d0, d1, d2, d3, d4, d5, d6]) :
    blk = ⟨d0, d1, d2, d3, d4, d5, d6⟩ := by
  refine block_ext fun i => ?_
  rw [h i, ← List.getElem?_drop, hds]
  fin_cases i <;> rfl

/-- Settles O50: the READ ends as every successful one (`BeginsRead.serves`) with the seven bytes in `buf`, and the
outputs follow `buf` after every step. -/
theorem fullReadShowsTheDecodedTime : Obligations.FullReadShowsTheDecodedTime := by
  unfold Obligations.FullReadShowsTheDecodedTime
  intro s ins rest d0 d1 d2 d3 d4 d5 d6 hpres hs hend has hds
  have h1 : 1 ≤ (7#8).toNat := by decide
  have h7 : (7#8).toNat ≤ 7 := by decide
  obtain ⟨r, hserves, hr⟩ := (beginsRead_accept 0x00#8 h1 h7 s).serves has
  obtain ⟨t, hrun, rfl, -⟩ := actionRun_of_accepted (edge_of_presents_read hpres h1 h7) rfl hs hend hserves rfl
  have hbuf : t.buf = ⟨d0, d1, d2, d3, d4, d5, d6⟩ := hr.bytes.eq_of_seven hds
  have hfollows : CodecFollows t := by
    rw [Nat.add_comm] at hrun
    obtain ⟨v, _, hv, hrest, -⟩ := actionRun_succ_cases hrun
    have hstep := outputsFollowBufferAndPorts.2
    exact gatherRun_keeps (fun _ _ _ => hstep _ _) _ (hstep _ _ hv) hrest
  refine ⟨_, t, hrun, hr.resCode, ⟨hr.resCode, congrArg Registers.op hr.frame, congrArg Registers.ra hr.frame,
    congrArg Registers.cnt hr.frame⟩, hbuf ▸ hfollows.time, hbuf ▸ hfollows.flags, ?_⟩
  rw [rdData, hbuf]
  rfl

/-- The phase in which a WRITE waits for its answer number `k`, counted from 0 (40_transactions.md R113). -/
def writePhase : Nat → Phase
  | 0 => .pStart
  | 1 => .pSlaw
  | 2 => .pReg
  | _ => .pWdata

/-- Registers with which a WRITE begins (40_transactions.md R112). -/
structure BeginsWrite (ra v : Byte) (r₀ : Registers) : Prop where
  ph : r₀.ph = .pStart
  op : r₀.op = .write
  ra : r₀.ra = ra
  wd : r₀.wd = v

/-- Where a WRITE that began with registers `r₀` stands after `ds.length` answers: only its phase has changed. -/
def writeStage (r₀ : Registers) (ds : List Byte) (r : Registers) : Prop := r = { r₀ with ph := writePhase ds.length }

section
variable {reg v : Byte} {r₀ r : Registers} {ds : List Byte}

theorem BeginsWrite.writeStage_nil (hb : BeginsWrite reg v r₀) : writeStage r₀ [] r₀ := by
  obtain ⟨hp, -⟩ := hb
  cases r₀
  cases hp
  rfl

/-- Every stage of a WRITE but the last goes on to the next one with the action of its number (40_transactions.md
R113). -/
theorem writeStage.next (hb : BeginsWrite reg v r₀) (h : writeStage r₀ ds r) (hl : ds.length < 3) {st d : Byte}
    (hst : writeStatuses[ds.length]? = some st) :
    ∃ r', Takes r (st, d) (writeActions reg v).tail[ds.length]? r' ∧ writeStage r₀ (ds ++ [d]) r' := by
  obtain ⟨-, ho, rfl, rfl⟩ := hb
  obtain rfl := h
  simp only [writeStage, List.length_append, List.length_singleton]
  obtain hk | hk | hk : ds.length = 0 ∨ ds.length = 1 ∨ ds.length = 2 := by omega
  · rw [hk] at hst ⊢
    cases hst
    exact ⟨_, takes_started rfl d, rfl⟩
  · rw [hk] at hst ⊢
    cases hst
    exact ⟨_, takes_addressed rfl d, rfl⟩
  · rw [hk] at hst ⊢
    cases hst
    exact ⟨_, takes_regWrite (r := { r₀ with ph := .pReg }) rfl ho d, rfl⟩

/-- Every stage of a WRITE waits for the status of its number (40_transactions.md R113). -/
theorem writeStage.awaits (h : writeStage r₀ ds r) {e : Byte} (he : writeStatuses[ds.length]? = some e) :
    Awaits r e := by
  have hlt : ds.length < 4 := (List.getElem?_eq_some_iff.1 he).1
  rintro s rfl
  have hp : s.ph = writePhase ds.length := congrArg Registers.ph h
  interval_cases ds.length <;> (cases he; simp [expectedStatus, hp, writePhase])

/-- All answers to a WRITE as expected: the last one issues STOP and loads the settle timer (40_transactions.md
R113). -/
theorem BeginsWrite.serves (hb : BeginsWrite reg v r₀) {as : List (Byte × Byte)}
    (has : as.map Prod.fst = writeStatuses) :
    Serves r₀ as (writeActions reg v).tail { r₀ with settle := Config.tSettle, ph := .pSettle } := by
  obtain ⟨bs, d, rfl, hbs⟩ := exists_snoc_of_map_fst (l := writeStatuses.take 3) has
  obtain ⟨r, hserves, hstage⟩ :=
    serves_stages hb.writeStage_nil (fun _ _ hl h _ _ hst => h.next hb hl hst) 3 le_rfl (by decide) bs hbs
  have hds : (bs.map Prod.snd).length = 3 := by rw [List.length_map, length_of_map_fst hbs (by decide)]
  rw [writeStage, hds] at hstage
  subst hstage
  exact hserves.snoc (takes_written rfl d)

/-- The tag of the phase that takes a WRITE's answer number `k` (60_exceptions.md R191). -/
theorem tagOfPhase_writePhase (k : Nat) : tagOfPhase (writePhase k) = writeTag k := by
  match k with
  | 0 | 1 | 2 | _ + 3 => rfl

theorem writePhase_ne_pRxdata (k : Nat) : writePhase k ≠ .pRxdata := by
  match k with
  | 0 | 1 | 2 | _ + 3 => simp [writePhase]

end

/-- The registers of an accepted WRITE, before any answer (40_transactions.md R112). -/
theorem beginsWrite_accept (ra v : Byte) (s : State) : BeginsWrite ra v (registers (accept .write ra 1 v s)) :=
  ⟨rfl, rfl, rfl, rfl⟩

/-- Settles O49: acceptance, and the answers up to the unexpected one, whose stage aborts (`serves_stages_mismatch`). -/
theorem writeWithUnexpectedStatusFails : Obligations.WriteWithUnexpectedStatusFails := by
  unfold Obligations.WriteWithUnexpectedStatusFails
  intro s ra v ins rest k x e hpres hs hend he hx has
  have hb := beginsWrite_accept ra v s
  have hk : k < 4 := (List.getElem?_eq_some_iff.1 he).1
  obtain ⟨bs, d, r, hbs, hlen, hserves, hstage⟩ :=
    serves_stages_mismatch hb.writeStage_nil (fun _ _ hl h _ _ hst => h.next hb hl hst)
      (fun _ _ h _ he => h.awaits he) (Nat.le_of_lt_succ hk) he hx has
  obtain ⟨t, hrun, ht, -⟩ := actionRun_of_accepted (edge_of_presents_write hpres) rfl hs hend hserves rfl
  rw [writeStage, List.length_map, hlen] at hstage
  subst hstage
  have hph : t.ph = .idle := congrArg Registers.ph ht
  have hfail : t.resCode = .fail := congrArg Registers.resCode ht
  exact ⟨t, hrun, hph, hfail, (congrArg Registers.resTag ht).trans (tagOfPhase_writePhase k),
    (congrArg Registers.resIdx ht).trans (if_neg (writePhase_ne_pRxdata k)), congrArg Registers.resStatus ht,
    by simp [busy, hph], by simp [done, hph, hfail], congrArg Registers.buf ht⟩

/-- The input values that remain bring no reset, so the coming cycles are free of it (log 2). -/
theorem fedBy.resetFree {l : List PortIn} {k : Nat} {s : State} (h : fedBy l s) (hl : ∀ p ∈ l.take k, p.rst = false) :
    resetFree k s := by
  cases l with
  | nil =>
    obtain ⟨q, hq, hs⟩ := h
    intro p hp
    obtain rfl : p = hush q := by simpa [hq, hs] using List.mem_of_mem_take hp
    rfl
  | cons q m =>
    rw [Machine.resetFree, h.eq_of_ne_nil (by simp)]
    exact hl

/-- The settle delay, with its frame: after `settle + 1` cycles without an action the WRITE has ended with OK, and no
other register has changed (41_phases.md R146). -/
theorem actionRun_settle (k : Nat) : ∀ s : State, s.ph = .pSettle → s.settle = k → resetFree (k + 1) s →
    ∃ t, actionRun (k + 1) s = some ([], t) ∧
      registers t = { registers s with ph := .idle, resCode := .ok, settle := 0 } := by
  induction k with
  | zero =>
    intro s hp hk hf
    have hedge := Edge.settled hf.rst_eq_false hp hk
    refine ⟨_, actionRun_succ hedge.step (k := 0) rfl, ?_⟩
    rw [registers_endCycle, ← hk]
    rfl
  | succ k ih =>
    intro s hp hk hf
    have hedge := Edge.settling hf.rst_eq_false hp (by omega)
    obtain ⟨t, hrun, ht⟩ := ih _ (by simpa using hp) (by simp [hk]) (hedge.resetFree_endCycle hf)
    refine ⟨t, by simpa [issued] using actionRun_succ hedge.step hrun, ?_⟩
    rw [ht, registers_endCycle]
    rfl

/-- Settles O48: acceptance, the four answers (`BeginsWrite.serves`), and the settle delay (`actionRun_settle`). -/
theorem writeWithExpectedStatusesSucceeds : Obligations.WriteWithExpectedStatusesSucceeds := by
  unfold Obligations.WriteWithExpectedStatusesSucceeds
  intro s ra v ins rest hpres hs hend hrest has
  have hserves := (beginsWrite_accept ra v s).serves has
  obtain ⟨u, hrun, hu, hfed⟩ := actionRun_of_accepted (edge_of_presents_write hpres) rfl hs hend hserves rfl
  have hph : u.ph = .pSettle := congrArg Registers.ph hu
  have hsettle : u.settle = Config.tSettle := congrArg Registers.settle hu
  obtain ⟨t, hdelay, ht⟩ := actionRun_settle Config.tSettle u hph hsettle (hfed.resetFree hrest)
  rw [hu] at ht
  have htph : t.ph = .idle := congrArg Registers.ph ht
  have htok : t.resCode = .ok := congrArg Registers.resCode ht
  exact ⟨⟨u, hrun, hph, congrArg Registers.resCode hu, hsettle⟩, t, actionRun_add hrun hdelay, htph, htok,
    congrArg Registers.resTag ht, congrArg Registers.resIdx ht, congrArg Registers.resStatus ht,
    by simp [busy, htph], by simp [done, htph, htok], congrArg Registers.buf ht⟩

end Sys2Proof.Machine
end
